-- ==== Sys2Proof/Word.lean ====
section
/-! DEFINITION. The value types of the block: every value is an unsigned integer of a stated width (R7). -/

namespace Sys2Proof

/-- `u8` of R7: a byte, or one ASCII character of the hex string. -/
abbrev Byte := BitVec 8

/-- `u32` of R7: the Word of the source. -/
abbrev Word := BitVec 32

/-- `u64` of R7: the length field. -/
abbrev DWord := BitVec 64

/-- Four words in the order A, B, C, D (R25) or a, b, c, d (R26). -/
structure Quad where
  a : Word
  b : Word
  c : Word
  d : Word
deriving DecidableEq, Repr

end Sys2Proof
end

