-- ==== Sys2Proof/Syntax.lean ====
section
/-! DEFINITION. The commands of the block, as R76 names them: the one inductive `Instr`. -/

namespace Sys2Proof

/-- A command word after decoding (R73, R76): NOP, CLEAR, PUSH(DATA), HASH or Reserved(OPC).
The ignored bits of R75 are no part of a command.
The six `(reserved)` rows of the opcode table are mask and match pieces of the one row "0x04 to 0xff" of R73;
R216 calls it "the row `(reserved)`", and `reserved` stands for it. -/
inductive Instr where
  /-- R212. -/
  | nop
  /-- R213. -/
  | clear
  /-- R214, with DATA of R72. -/
  | push (data : Byte)
  /-- R215. -/
  | hash
  /-- R74 and R216: an operation code of 0x04 to 0xff. -/
  | reserved (opc : Byte)
deriving DecidableEq, Repr

end Sys2Proof
end

