-- ==== Sys2Proof/WellFormed.lean ====
section
/-! DEFINITION. Which terms of `Instr` are commands of the block. -/

namespace Sys2Proof

/-- A reserved command carries an operation code of the reserved range 0x04 to 0xff (R73, R74).
DATA of PUSH is any byte (R214). -/
def Instr.wf : Instr → Bool
  | .nop => true
  | .clear => true
  | .push _ => true
  | .hash => true
  | .reserved opc => 4 ≤ opc.toNat

end Sys2Proof
end

