-- ==== Sys2Proof/Decode.lean ====
section
/-! DEFINITION. The command word (R70 to R76): the decoder, then the encoder. -/

namespace Sys2Proof

/-- OPC, bits [31:24] of a command word (R70). -/
def opcOf (w : Word) : Byte := w.extractLsb' 24 8

/-- DATA, bits [7:0] of a command word (R70, R72). -/
def dataOf (w : Word) : Byte := w.extractLsb' 0 8

/-- The decoder, total on every word and selected by OPC alone (R73 to R76).
It has nothing to refuse: an illegal word is a reserved command, by name. -/
def decode (w : Word) : Instr :=
  match (opcOf w).toNat with
  | 0 => .nop
  | 1 => .clear
  | 2 => .push (dataOf w)
  | 3 => .hash
  | _ => .reserved (opcOf w)

/-- A command word of R70 with RSV written 0. -/
def commandWord (opc data : Byte) : Word := opc ++ (0#16) ++ data

/-- The encoder: the word the assembly of R78 writes, ignored bits zero. -/
def encode : Instr → Word
  | .nop => commandWord 0x00 0
  | .clear => commandWord 0x01 0
  | .push data => commandWord 0x02 data
  | .hash => commandWord 0x03 0
  | .reserved opc => commandWord opc 0

/-- The decoder on a word of `nbits` bits numbered as the opcode table numbers them.
Every command is exactly one 32-bit word (R71): bits above `nbits` are 0, and no command is longer than 32 bits. -/
def decodeTableWord (nbits w : Nat) : Option Instr :=
  if nbits ≤ 32 then some (decode (BitVec.ofNat 32 (w % 2 ^ nbits))) else none

end Sys2Proof
end

