-- ==== Sys2Proof/Config.lean ====
section
/-! DEFINITION. What an implementation of the block fixes (R6), and the free value of an unspecified read (R219). -/

namespace Sys2Proof

/-- The parameters of R6 that the source does not settle.
Their width says their range: `0 ≤ MAX_MSG_BYTES ≤ 2^32 − 1`. -/
structure Config where
  /-- `MAX_MSG_BYTES`, the capacity of MSG, OPEN (R6, D7). -/
  maxMsgBytes : Word
  /-- `FIRST_BLOCK_ONLY` (R6, R193, D8). -/
  firstBlockOnly : Bool
  /-- `K_TABLE`, the round constants (R6, R140, D9). -/
  kTable : Vector Word 64
  /-- `CYCLES_PER_STEP`, OPEN; no rule depends on it (R6, R268). -/
  cyclesPerStep : Nat
deriving DecidableEq, Repr

/-- `NB_MAX` of R6: how many blocks the longest message pads to. -/
def Config.nbMax (c : Config) : Nat := (c.maxMsgBytes.toNat + 8) / 64 + 1

/-- What R6 asks of the parameters beyond their types. -/
abbrev Config.wf (c : Config) : Prop := 1 ≤ c.cyclesPerStep

/-- The value of the n-th unspecified read: "a fresh draw per read under no law" (R219).
A free value: it has no body, so nothing is known of it (log 7). -/
opaque Config.unspecified : Nat → Word

end Sys2Proof
end

