-- ==== Sys2Proof/Machine/State.lean ====
section
/-! DEFINITION. The state of the block (R20) as plain data, beside it the pending turns of its surroundings and what the
host has read, the reasons a step can stop, and the state after reset (R261). -/

namespace Sys2Proof.Machine

/-- A byte memory (MSG of R21, PAD of R24): the bytes that differ from 0x00, by strictly rising address.
An address that is not listed reads as 0x00 (log 4). -/
abbrev Memory := List Host.Cell

/-- `PHASE` (R30, R32). -/
inductive Phase where
  | idle
  | busy
  | done
deriving DecidableEq, Repr

/-- `SEQ` (R30): the next micro-step while BUSY. -/
inductive Seq where
  | pad
  | load
  | round
  | fold
  | format
deriving DecidableEq, Repr

/-- The three host-interface errors of R241. -/
inductive ErrorKind where
  | cmd
  | busy
  | full
deriving DecidableEq, Repr

/-- A register number: 5 bits, 0 to 31 (R34). -/
abbrev RegNum := BitVec 5

/-- The host registers of R34, by what they are. -/
inductive HostReg where
  | cmd
  | status
  | msgLen
  | capacity
  /-- STATE_A to STATE_D. -/
  | state (k : Fin 4)
  | digest (k : Fin 4)
  | hex (n : Fin 8)
  | reserved
deriving DecidableEq, Repr

/-- One access of the host (R210): `RD(n)` or `WR(n, w)`. -/
inductive Access where
  | read (n : RegNum)
  | write (n : RegNum) (w : Word)
deriving DecidableEq, Repr

/-- One turn of the total order of R61: an engine step, a host access, or the reset input (R260). -/
inductive Turn where
  | engine
  | host (access : Access)
  | reset
deriving DecidableEq, Repr

/-- A read the host has made and the value it got (R217, R219). -/
structure ReadResult where
  reg : RegNum
  value : Word
deriving DecidableEq, Repr

/-- The tuple of R20, the parameters of R6, and the model's own `turns`, `reads` and `draws`. -/
structure State where
  /-- The parameters, hardwired: no step changes them (log 1). -/
  cfg : Config
  /-- `MSG` (R21). -/
  msg : Memory
  /-- `MSG_LEN` (R22). -/
  msgLen : Word
  /-- `LEN_BITS` (R23). -/
  lenBits : DWord
  /-- `PAD` (R24). -/
  pad : Memory
  /-- `NB` (R24). -/
  nb : Nat
  /-- `A`, `B`, `C`, `D` (R25). -/
  acc : Quad
  /-- `a`, `b`, `c`, `d` (R26). -/
  work : Quad
  /-- `X[0..15]` (R27). -/
  x : Vector Word 16
  /-- `PHASE` (R30). -/
  phase : Phase
  /-- `SEQ` (R30). -/
  seq : Seq
  /-- `j`, the index of the current block (R30). -/
  j : Nat
  /-- `i`, the index of the next round (R30). -/
  i : Fin 64
  /-- `DIGEST[0..3]` (R29). -/
  digest : Vector Word 4
  /-- `HEXC[0..31]` (R29). -/
  hexc : Vector Byte 32
  /-- `ERR_CMD` (R33). -/
  errCmd : Bool
  /-- `ERR_BUSY` (R33). -/
  errBusy : Bool
  /-- `ERR_FULL` (R33). -/
  errFull : Bool
  /-- `RES_VALID` (R38). -/
  resValid : Bool
  /-- The model's own: the turns still to come, first first (R61, log 5). -/
  turns : List Turn
  /-- The model's own: what the host has read, newest first (log 8). -/
  reads : List ReadResult
  /-- The model's own: how many unspecified values were drawn (R219, log 7). -/
  draws : Nat
deriving DecidableEq, Repr

/-- Why the machine stops. No behaviour of the block faults; an access to an address that MSG or PAD does not have would,
and it arises only in states that no run reaches (log 9). -/
inductive Fault where
  /-- Raised by PUSH and by PAD where MSG has no such address (R21). Safe: the model stops. -/
  | msgAddress
  /-- Raised by LOAD where PAD has no such address (R24). Safe: the model stops. -/
  | padAddress
deriving DecidableEq, Repr

/-- An instruction without a meaning. -/
inductive Refusal where
  /-- Raised by an arm of `exec` that has no meaning yet (there is none). Safe: the model stops. -/
  | notModelled (mnemonic : String)
deriving DecidableEq, Repr

/-- What a step answers. -/
abbrev Outcome := Host.Outcome State Fault Refusal

/-- The parameters of the machine that `State.reset` is: the spec's defaults, and the largest capacity it admits (log 2). -/
def defaultConfig : Config :=
  { maxMsgBytes := 0xffffffff, firstBlockOnly := false, kTable := kDefault, cyclesPerStep := 1 }

/-- The machine right after reset (R261): IDLE, the empty message, no error, RES_VALID = 0.
The other items are unspecified there; log 3 names their values. -/
def State.reset : State :=
  { cfg := defaultConfig
    msg := []
    msgLen := 0
    lenBits := 0
    pad := []
    nb := 1
    acc := ⟨0, 0, 0, 0⟩
    work := ⟨0, 0, 0, 0⟩
    x := Vector.replicate 16 0
    phase := .idle
    seq := .pad
    j := 0
    i := 0
    digest := Vector.replicate 4 0
    hexc := Vector.replicate 32 0
    errCmd := false
    errBusy := false
    errFull := false
    resValid := false
    turns := []
    reads := []
    draws := 0 }

end Sys2Proof.Machine
end

