-- ==== Sys2Proof/Machine/Ops.lean ====
section
/-! DEFINITION. The named operations over memory and registers: byte memories and their canonical form, raising an error
(the block's only exception mechanism, R242) and clearing errors, the BUSY test, and what the reset input does. -/

namespace Sys2Proof.Machine

/-- The byte at an address; an address that is not listed reads as 0x00 (log 4). -/
def Memory.read : Memory → Nat → Byte
  | [], _ => 0
  | (k, c) :: rest, a => if k = a then c else Memory.read rest a

/-- `MemWrite` of one byte (R13), keeping the canonical form. -/
def Memory.write : Memory → Nat → Byte → Memory
  | [], a, b => if b = 0 then [] else [(a, b)]
  | (k, c) :: rest, a, b =>
    if k < a then (k, c) :: Memory.write rest a b
    else
      let tail : Memory := if k = a then rest else (k, c) :: rest
      if b = 0 then tail else (a, b) :: tail

/-- `MemRead(space, addr, n)` of R13: the n bytes from an address on. -/
def Memory.readBytes (m : Memory) : Nat → Nat → List Byte
  | _, 0 => []
  | a, n + 1 => m.read a :: m.readBytes (a + 1) n

/-- `MemWrite(space, addr, n, v)` of R13: the bytes of a list to consecutive addresses. -/
def Memory.writeBytes : Memory → Nat → List Byte → Memory
  | m, _, [] => m
  | m, a, b :: bs => Memory.writeBytes (m.write a b) (a + 1) bs

/-- The canonical form: strictly rising addresses, and no entry equal to what an unlisted address reads as. -/
abbrev Memory.wf (m : Memory) : Prop :=
  m.Pairwise (fun p q => p.1 < q.1) ∧ ∀ c ∈ m, c.2 ≠ 0

/-- Every listed address lies below `size`: the memory has no byte outside its address space (R50). -/
abbrev Memory.within (m : Memory) (size : Nat) : Prop := ∀ c ∈ m, c.1 < size

/-- How many bytes `PAD` has: `64 · NB_MAX` (R24). -/
def State.padSize (s : State) : Nat := 64 * s.cfg.nbMax

/-- The Message `MSG[0 .. MSG_LEN)` (R16). -/
def State.message (s : State) : List Byte := s.msg.readBytes 0 s.msgLen.toNat

/-- `raise E` of R242: set the sticky bit of E, write nothing else. -/
def State.raise (e : ErrorKind) (s : State) : State :=
  match e with
  | .cmd => { s with errCmd := true }
  | .busy => { s with errBusy := true }
  | .full => { s with errFull := true }

/-- Clearing the three error bits (R213, R246). There is no return from a trap; this is the only thing that undoes a raise,
beside reset. -/
def State.clearErrors (s : State) : State :=
  { s with errCmd := false, errBusy := false, errFull := false }

/-- The BUSY test of R211: while BUSY the command raises ERR_BUSY and has no other effect. -/
def unlessBusy (s : State) (accepted : Outcome) : Outcome :=
  if s.phase = .busy then .next (s.raise .busy) else accepted

/-- `MemWrite(MSG, MSG_LEN, 1, DATA) ; MSG_LEN <- MSG_LEN + 1` of R214. MSG has addresses 0 to MAX_MSG_BYTES − 1 (R21). -/
def State.appendByte (data : Byte) (s : State) : Outcome :=
  if s.msgLen.toNat < s.cfg.maxMsgBytes.toNat then
    .next { s with msg := s.msg.write s.msgLen.toNat data, msgLen := s.msgLen + 1, phase := .idle }
  else .fault .msgAddress

/-- The reset input (R260): one atomic event that sets every state item to its value in R261.
The hardwired parameters stay, and what belongs to the surroundings (the turns to come, what the host has read, the count
of draws) is no part of the block (log 3, log 7). -/
def State.resetBlock (s : State) : State :=
  { State.reset with cfg := s.cfg, turns := s.turns, reads := s.reads, draws := s.draws }

end Sys2Proof.Machine
end

