-- ==== Sys2Proof/Machine/Commands.lean ====
section
/-! DEFINITION. The meaning of each command (R211 to R216). The block is ready for one in any phase; a command is performed
whole in the host step that writes it (R211). -/

namespace Sys2Proof.Machine

/-- NOP (R212): nothing, in any phase, BUSY included. -/
def execNop (s : State) : Outcome := .next s

/-- CLEAR (R213): `MSG_LEN <- 0`, the error bits 0, `PHASE <- IDLE`; ERR_BUSY while BUSY. -/
def execClear (s : State) : Outcome :=
  unlessBusy s (.next { s.clearErrors with msgLen := 0, phase := .idle })

/-- PUSH (R214): append the byte and go to IDLE; ERR_BUSY while BUSY, else ERR_FULL when MSG_LEN = MAX_MSG_BYTES. -/
def execPush (data : Byte) (s : State) : Outcome :=
  unlessBusy s
    (if s.msgLen = s.cfg.maxMsgBytes then .next (s.raise .full) else s.appendByte data)

/-- HASH (R215): `PHASE <- BUSY`, `SEQ <- S_PAD`; ERR_BUSY while BUSY. -/
def execHash (s : State) : Outcome :=
  unlessBusy s (.next { s with phase := .busy, seq := .pad })

/-- A reserved command (R74, R216): ERR_CMD in every phase, whatever the operation code. -/
def execReserved (_opc : Byte) (s : State) : Outcome := .next (s.raise .cmd)

end Sys2Proof.Machine
end

