-- ==== Sys2Proof/Machine/Dispatch.lean ====
section
/-! DEFINITION. One arm for each command (R211). -/

namespace Sys2Proof.Machine

def exec (i : Instr) (s : State) : Host.Outcome State Fault Refusal :=
  match i with
  | .nop => Sys2Proof.Machine.execNop s
  | .clear => Sys2Proof.Machine.execClear s
  | .push data => Sys2Proof.Machine.execPush data s
  | .hash => Sys2Proof.Machine.execHash s
  | .reserved opc => Sys2Proof.Machine.execReserved opc s

end Sys2Proof.Machine
end

