-- ==== Sys2Proof/Machine/Bits.lean ====
section
/-! DEFINITION. Rotation, byte order and the hex digit: the bit-level operations of R10, R12 and R172. -/

namespace Sys2Proof.Machine

/-- `rotl32(x, n)` of R10, for 1 ≤ n ≤ 31. -/
def rotl32 (x : Word) (n : Nat) : Word := (x <<< n) ||| (x >>> (32 - n))

/-- `LE32(b0, b1, b2, b3)` of R12: byte 0 is least significant. -/
def le32 (b0 b1 b2 b3 : Byte) : Word :=
  BitVec.ofNat 32 (b0.toNat + 2 ^ 8 * b1.toNat + 2 ^ 16 * b2.toNat + 2 ^ 24 * b3.toNat)

/-- Byte `t` of a word, counted from the least significant byte: `x[8t+7 : 8t]`. -/
def byteOf (x : Word) (t : Nat) : Byte := x.extractLsb' (8 * t) 8

/-- `LE32bytes(x)` of R12. -/
def le32Bytes (x : Word) : List Byte := [byteOf x 0, byteOf x 1, byteOf x 2, byteOf x 3]

/-- `LE64bytes(v)` of R12: byte k is `v[8k+7 : 8k]`. -/
def le64Bytes (v : DWord) : List Byte := (List.range 8).map fun k => v.extractLsb' (8 * k) 8

/-- `bswap32(x)` of R12: the four bytes of x reversed. -/
def bswap32 (x : Word) : Word := le32 (byteOf x 3) (byteOf x 2) (byteOf x 1) (byteOf x 0)

/-- `hexdigit(n)` of R172: the ASCII characters '0' to '9' and 'a' to 'f'. -/
def hexDigit (n : BitVec 4) : Byte :=
  if n.toNat ≤ 9 then BitVec.ofNat 8 (0x30 + n.toNat) else BitVec.ofNat 8 (0x61 + (n.toNat - 10))

end Sys2Proof.Machine
end

