-- ==== Sys2Proof/Machine/Compression.lean ====
section
/-! DEFINITION. The compression round engine (R135 to R146). -/

namespace Sys2Proof.Machine

/-- `F` of R136. -/
def mixF (b c d : Word) : Word := (b &&& c) ||| (~~~b &&& d)

/-- `G` of R136. -/
def mixG (b c d : Word) : Word := (b &&& d) ||| (c &&& ~~~d)

/-- `H` of R136. -/
def mixH (b c d : Word) : Word := b ^^^ c ^^^ d

/-- `I` of R136. -/
def mixI (b c d : Word) : Word := c ^^^ (b ||| ~~~d)

/-- `f_i` of R137, by the quarter of the round. -/
def mix (i : Fin 64) (b c d : Word) : Word :=
  match i.val / 16 with
  | 0 => mixF b c d
  | 1 => mixG b c d
  | 2 => mixH b c d
  | _ => mixI b c d

/-- `m(i) = i mod 16` of R139: the flat schedule of this variant. -/
def wordIndex (i : Fin 64) : Fin 16 := Fin.ofNat 16 i.val

/-- One round at index i (R141): the four writes read the values from before the round (R13). -/
def roundStep (k : Vector Word 64) (x : Vector Word 16) (i : Fin 64) (w : Quad) : Quad :=
  let sum := mix i w.b w.c w.d + x[wordIndex i] + k[i] + w.a
  let temp := rotl32 sum (rotAmount i) + w.b
  { a := w.d, b := temp, c := w.b, d := w.c }

/-- `A + a, B + b, C + c, D + d` of R143. -/
def addQuad (st w : Quad) : Quad :=
  { a := st.a + w.a, b := st.b + w.b, c := st.c + w.c, d := st.d + w.d }

/-- The working registers after rounds 0 to n − 1 of R142. -/
def roundsUpTo (k : Vector Word 64) (x : Vector Word 16) (st : Quad) : Nat → Quad
  | 0 => st
  | n + 1 => roundStep k x (Fin.ofNat 64 n) (roundsUpTo k x st n)

/-- `compress(st, X)` of R142: exactly 64 rounds, then the fold. -/
def compress (k : Vector Word 64) (st : Quad) (x : Vector Word 16) : Quad :=
  addQuad st (roundsUpTo k x st 64)

end Sys2Proof.Machine
end

