-- ==== Sys2Proof/Machine/Formatter.lean ====
section
/-! DEFINITION. The hex digit formatter (R170 to R175). -/

namespace Sys2Proof.Machine

/-- `DIGEST[0..3]` of R171. -/
def digestWords (st : Quad) : Vector Word 4 :=
  #v[bswap32 st.a, bswap32 st.b, bswap32 st.c, bswap32 st.d]

/-- Character `8k + t` of R173 is the digit of `DIGEST[k][31 − 4t : 28 − 4t]`: most significant digit first. -/
def hexChar (digest : Vector Word 4) (n : Fin 32) : Byte :=
  hexDigit ((digest[n.val / 8]).extractLsb' (28 - 4 * (n.val % 8)) 4)

/-- `HEXC[0..31]` of R173. -/
def hexChars (digest : Vector Word 4) : Vector Byte 32 := Vector.ofFn fun n => hexChar digest n

/-- The Digest of R170: `LE32bytes(A) ‖ LE32bytes(B) ‖ LE32bytes(C) ‖ LE32bytes(D)`. -/
def digestBytes (st : Quad) : List Byte :=
  le32Bytes st.a ++ le32Bytes st.b ++ le32Bytes st.c ++ le32Bytes st.d

end Sys2Proof.Machine
end

