-- ==== Sys2Proof/Machine/Padding.lean ====
section
/-! DEFINITION. The padding engine (R100 to R106) and the block decomposition unit (R120 to R122), as functions on bytes. -/

namespace Sys2Proof.Machine

/-- `zeros(n)` of R11. -/
def zeros (n : Nat) : List Byte := List.replicate n 0

/-- `Z = (55 − L) mod 64` of R102, the representative in 0 to 63 (R15). -/
def zeroCount (len : Nat) : Nat := ((55 - (len : Int)) % 64).toNat

/-- `(8 · L) mod 2^64`, the captured bit length (R103). -/
def bitLength (len : Nat) : DWord := BitVec.ofNat 64 (8 * len)

/-- `P` of R102, from the message and the captured length: `MSG ‖ 0x80 ‖ zeros(Z) ‖ LE64bytes(LEN_BITS)`. -/
def padWith (message : List Byte) (lenBits : DWord) : List Byte :=
  message ++ [0x80] ++ zeros (zeroCount message.length) ++ le64Bytes lenBits

/-- `pad(message)` of R18: the Padded Bit Stream as bytes. -/
def padBytes (message : List Byte) : List Byte := padWith message (bitLength message.length)

/-- `NB = |P| / 64` of R102. -/
def blockCount (padded : List Byte) : Nat := padded.length / 64

/-- The bits of a byte, most significant first (R52): `b[7], b[6], …, b[0]`. -/
def byteBits (b : Byte) : List Bool :=
  [b.getLsbD 7, b.getLsbD 6, b.getLsbD 5, b.getLsbD 4, b.getLsbD 3, b.getLsbD 2, b.getLsbD 1, b.getLsbD 0]

/-- The bit sequence of a byte sequence, "most-significant-bit-first order per byte" (R101 step 1). -/
def bitsOf (bytes : List Byte) : List Bool := bytes.flatMap byteBits

/-- The number of 0 bits of R101 step 3 after `n` message bits and the 1 bit: up to a length ≡ 448 (mod 512). -/
def zeroBitCount (n : Nat) : Nat := ((447 - (n : Int)) % 512).toNat

/-- The padding at bit level, steps 1 to 4 of R101. `padBytes` is to give the same bits (R102). -/
def padBits (message : List Byte) : List Bool :=
  bitsOf message ++ [true] ++ List.replicate (zeroBitCount (8 * message.length)) false
    ++ bitsOf (le64Bytes (bitLength message.length))

/-- Word k of Block j (R120, R121), from a reader of the padded bytes: 4 bytes at offset `64j + 4k`, little-endian. -/
def blockWord (byteAt : Nat → Byte) (j k : Nat) : Word :=
  le32 (byteAt (64 * j + 4 * k)) (byteAt (64 * j + 4 * k + 1))
    (byteAt (64 * j + 4 * k + 2)) (byteAt (64 * j + 4 * k + 3))

/-- `X[0..15]` of Block j (R121). -/
def blockWords (byteAt : Nat → Byte) (j : Nat) : Vector Word 16 :=
  Vector.ofFn fun k => blockWord byteAt j k.val

end Sys2Proof.Machine
end

