-- ==== Sys2Proof/Machine/Engine.lean ====
section
/-! DEFINITION. The sequencer and its micro-steps (R185 to R193). They have no encoding (R80): they run as the sequencer
orders them after a HASH. -/

namespace Sys2Proof.Machine

/-- PAD (R186): capture the length, form the padded bytes in PAD, load IV, go to Block 0.
MSG has no address at or above MAX_MSG_BYTES (R21). -/
def stepPad (s : State) : Outcome :=
  if s.msgLen.toNat ≤ s.cfg.maxMsgBytes.toNat then
    let lenBits := bitLength s.msgLen.toNat
    let padded := padWith s.message lenBits
    .next { s with
      lenBits := lenBits
      pad := s.pad.writeBytes 0 padded
      nb := blockCount padded
      acc := iv
      j := 0
      seq := .load }
  else .fault .msgAddress

/-- LOAD (R187): the words of Block j to X, the accumulator to the working registers, round 0 next.
PAD has no address at or above `64 · NB_MAX` (R24). -/
def stepLoad (s : State) : Outcome :=
  if 64 * s.j + 64 ≤ s.padSize then
    .next { s with x := blockWords s.pad.read s.j, work := s.acc, i := 0, seq := .round }
  else .fault .padAddress

/-- ROUND (R188): round i of R141; round 63 goes to FOLD and leaves i as it is. -/
def stepRound (s : State) : Outcome :=
  let work := roundStep s.cfg.kTable s.x s.i s.work
  if s.i = 63 then .next { s with work := work, seq := .fold }
  else .next { s with work := work, i := s.i + 1 }

/-- FOLD (R189): fold the block into the accumulator, then FORMAT after the last block (after the first one when
FIRST_BLOCK_ONLY holds, R193) or LOAD of the next block. -/
def stepFold (s : State) : Outcome :=
  let acc := addQuad s.acc s.work
  if s.cfg.firstBlockOnly ∨ s.j + 1 = s.nb then .next { s with acc := acc, seq := .format }
  else .next { s with acc := acc, j := s.j + 1, seq := .load }

/-- FORMAT (R190): DIGEST, HEXC from the DIGEST just written, RES_VALID, and PHASE to DONE. -/
def stepFormat (s : State) : Outcome :=
  .next { s with
    digest := digestWords s.acc
    hexc := hexChars (digestWords s.acc)
    resValid := true
    phase := .done }

/-- The micro-step that SEQ names (R185). -/
def microStep (s : State) : Outcome :=
  match s.seq with
  | .pad => stepPad s
  | .load => stepLoad s
  | .round => stepRound s
  | .fold => stepFold s
  | .format => stepFormat s

/-- A turn of the engine: it has a step exactly while BUSY (R185), and rests otherwise. -/
def engineTurn (s : State) : Outcome :=
  if s.phase = .busy then microStep s else .next s

end Sys2Proof.Machine
end

