-- ==== Sys2Proof/Machine/Flags.lean ====
section
/-! DEFINITION. The STATUS register (R32): the block has no other flags (R33). -/

namespace Sys2Proof.Machine

/-- The host's encoding of PHASE (R30, R32). -/
def Phase.code : Phase → Nat
  | .idle => 0
  | .busy => 1
  | .done => 2

/-- STATUS as R217 composes it: `PHASE + 4·ERR_CMD + 8·ERR_BUSY + 16·ERR_FULL + 32·FBO`. -/
def State.status (s : State) : Word :=
  BitVec.ofNat 32
    (s.phase.code + 4 * s.errCmd.toNat + 8 * s.errBusy.toNat + 16 * s.errFull.toNat
      + 32 * s.cfg.firstBlockOnly.toNat)

/-- When a read of registers 4 to 19 is defined (R219): `PHASE ≠ BUSY ∧ RES_VALID = 1`. -/
def State.resultDefined (s : State) : Bool := s.phase ≠ .busy && s.resValid

end Sys2Proof.Machine
end

