-- ==== Sys2Proof/Machine/Operands.lean ====
section
/-! DEFINITION. The host register map (R34) and the value each register shows (R217, R56).
The one operand of a command, DATA of PUSH, is a field of the command word (R72, Decode.lean). -/

namespace Sys2Proof.Machine

/-- The register a number names (R34). -/
def HostReg.ofNum (n : RegNum) : HostReg :=
  if n.toNat = 0 then .cmd
  else if n.toNat = 1 then .status
  else if n.toNat = 2 then .msgLen
  else if n.toNat = 3 then .capacity
  else if n.toNat < 8 then .state (Fin.ofNat 4 (n.toNat - 4))
  else if n.toNat < 12 then .digest (Fin.ofNat 4 (n.toNat - 8))
  else if n.toNat < 20 then .hex (Fin.ofNat 8 (n.toNat - 12))
  else .reserved

/-- Registers 4 to 19, whose reads R219 governs. -/
def HostReg.isResult : HostReg → Bool
  | .state _ => true
  | .digest _ => true
  | .hex _ => true
  | .cmd => false
  | .status => false
  | .msgLen => false
  | .capacity => false
  | .reserved => false

/-- State register k: 0 for A, 1 for B, 2 for C, 3 for D (R29). -/
def quadWord (q : Quad) (k : Fin 4) : Word := #v[q.a, q.b, q.c, q.d][k]

/-- HEXn (R56): characters 4n to 4n+3, the first in bits [7:0]. -/
def hexWord (hexc : Vector Byte 32) (n : Fin 8) : Word :=
  le32 hexc[4 * n.val] hexc[4 * n.val + 1] hexc[4 * n.val + 2] hexc[4 * n.val + 3]

/-- The defined value of a register read (R217). -/
def State.regValue (s : State) : HostReg → Word
  | .cmd => 0
  | .status => s.status
  | .msgLen => s.msgLen
  | .capacity => s.cfg.maxMsgBytes
  | .state k => quadWord s.acc k
  | .digest k => s.digest[k]
  | .hex n => hexWord s.hexc n
  | .reserved => 0

end Sys2Proof.Machine
end

