-- ==== Sys2Proof/Machine/HostPort.lean ====
section
/-! DEFINITION. The host port (R210, R211, R217 to R219) and the turns of the total order (R61). -/

namespace Sys2Proof.Machine

/-- `RD(n)` (R217, R219): the register's value goes to the host and no state of the block changes.
A result register that is not defined shows an unspecified word, a fresh draw for each read. -/
def hostRead (n : RegNum) (s : State) : Outcome :=
  let reg := HostReg.ofNum n
  if reg.isResult ∧ ¬s.resultDefined then
    .next { s with reads := ⟨n, Config.unspecified s.draws⟩ :: s.reads, draws := s.draws + 1 }
  else .next { s with reads := ⟨n, s.regValue reg⟩ :: s.reads }

/-- `WR(n, w)` (R211, R218): a write to CMD performs the command w; a write to any other register is ignored. -/
def hostWrite (n : RegNum) (w : Word) (s : State) : Outcome :=
  match HostReg.ofNum n with
  | .cmd => exec (decode w) s
  | _ => .next s

/-- One access of the host (R210). -/
def hostAccess (access : Access) (s : State) : Outcome :=
  match access with
  | .read n => hostRead n s
  | .write n w => hostWrite n w s

/-- One turn of the total order of R61, each atomic. -/
def takeTurn (turn : Turn) (s : State) : Outcome :=
  match turn with
  | .engine => engineTurn s
  | .host access => hostAccess access s
  | .reset => .next s.resetBlock

end Sys2Proof.Machine
end

