-- ==== Sys2Proof/Machine/Step.lean ====
section
/-! DEFINITION. One step of the machine: the next turn of the total order of host accesses, engine micro-steps and resets
(R61). -/

namespace Sys2Proof.Machine

/-- The next pending turn is taken off the list and performed.
When nothing is pending from outside, the engine goes on alone (R195, log 6): it takes its micro-step while BUSY and
rests otherwise (R185). -/
def step (s : State) : Host.Outcome State Fault Refusal :=
  match s.turns with
  | [] => engineTurn s
  | turn :: rest => takeTurn turn { s with turns := rest }

/-- The state in which the very next step performs the command word `w` of `nbits` bits: the host's next access writes it
to CMD, register 0 (R70, R210). The block fetches nothing (R65); its commands come from outside (log 12). -/
def State.withFetchWord (s : State) (nbits w : Nat) : State :=
  { s with turns := .host (.write 0 (BitVec.ofNat 32 (w % 2 ^ nbits))) :: s.turns }

end Sys2Proof.Machine
end

