-- ==== Sys2Proof/Machine/HashFunction.lean ====
section
/-! DEFINITION. The hash operation as a function (R18): `format(run(pad(message)))`, with no machine in it.
The micro-steps of Engine.lean are to agree with it (R194). -/

namespace Sys2Proof.Machine

/-- `W(j)` of R145: the words of Block j of the padded message. -/
def messageWords (message : List Byte) (j : Nat) : Vector Word 16 :=
  blockWords (fun q => (padBytes message)[q]?.getD 0) j

/-- `St(n)` of R145: the State after n blocks. -/
def stateAfter (k : Vector Word 64) (message : List Byte) : Nat → Quad
  | 0 => iv
  | n + 1 => compress k (stateAfter k message n) (messageWords message n)

/-- `NB_eff` of R192. -/
def effectiveBlocks (firstBlockOnly : Bool) (message : List Byte) : Nat :=
  if firstBlockOnly then 1 else blockCount (padBytes message)

/-- The final State the formatter sees (R194): `St(NB_eff)`. -/
def hashState (cfg : Config) (message : List Byte) : Quad :=
  stateAfter cfg.kTable message (effectiveBlocks cfg.firstBlockOnly message)

/-- `hash(message)` of R18 as the 32 characters `HEXC[0..31]` (R194). -/
def hashChars (cfg : Config) (message : List Byte) : Vector Byte 32 :=
  hexChars (digestWords (hashState cfg message))

/-- `hash(message) -> 32-character lowercase hex string` (R18): the 32 bytes read as ASCII (R194). -/
def hashString (cfg : Config) (message : List Byte) : String :=
  String.ofList ((hashChars cfg message).toList.map fun b => Char.ofNat b.toNat)

end Sys2Proof.Machine
end

