-- ==== Sys2Proof/Machine/HostAsm.lean ====
section
/-! DEFINITION. The host assembly of R78 and the pseudo-instructions of R79, over the host port. They are the host's own
operations, not commands of the block; the block's step does not depend on this file. -/

namespace Sys2Proof.Machine

/-- A variable of the host (R78). -/
abbrev HostVar := Nat

/-- A statement of R78, with each label resolved to the index of a statement of the program. -/
inductive Stmt where
  /-- `CMD imm32`: write a word to CMD. `NOP`, `CLEAR`, `PUSH imm8` and `HASH` are words of this kind. -/
  | cmd (w : Word)
  /-- `RD rd, REG`. -/
  | rd (v : HostVar) (reg : RegNum)
  /-- `AND rd, rs, imm`. -/
  | and (vd vs : HostVar) (imm : Word)
  /-- `BNE rd, imm, label`. -/
  | bne (v : HostVar) (imm : Word) (label : Nat)
  /-- `B label`. -/
  | b (label : Nat)
deriving DecidableEq, Repr

/-- `NOP` of R78. -/
def asmNop : Stmt := .cmd 0x00000000

/-- `CLEAR` of R78. -/
def asmClear : Stmt := .cmd 0x01000000

/-- `PUSH imm8` of R78: write `0x02000000 OR imm8`. -/
def asmPush (imm8 : Byte) : Stmt := .cmd (0x02000000 ||| imm8.setWidth 32)

/-- `HASH` of R78. -/
def asmHash : Stmt := .cmd 0x03000000

/-- The number of a register given by its name (R34); a reserved register has no name, and its first number stands for it. -/
def HostReg.toNum : HostReg → RegNum
  | .cmd => 0
  | .status => 1
  | .msgLen => 2
  | .capacity => 3
  | .state k => BitVec.ofNat 5 (4 + k.val)
  | .digest k => BitVec.ofNat 5 (8 + k.val)
  | .hex n => BitVec.ofNat 5 (12 + n.val)
  | .reserved => 20

/-- `PUSHS "text"` of R79. -/
def asmPushs (text : List Byte) : List Stmt := text.map asmPush

/-- `WAITDONE rd` of R79, placed at statement index `w`: it loops while PHASE = BUSY. -/
def asmWaitDone (v : HostVar) (w : Nat) : List Stmt :=
  [.rd v (HostReg.toNum .status), .and v v 3, .bne v 1 (w + 4), .b w]

/-- `RDHEX v0..v7` of R79. -/
def asmRdHex (v : Fin 8 → HostVar) : List Stmt :=
  (List.finRange 8).map fun n => .rd (v n) (HostReg.toNum (.hex n))

/-- `RDSTATE v0..v3` of R79. -/
def asmRdState (v : Fin 4 → HostVar) : List Stmt :=
  (List.finRange 4).map fun k => .rd (v k) (HostReg.toNum (.state k))

/-- `HASHS "text"` of R79. -/
def asmHashs (text : List Byte) : List Stmt := [asmClear] ++ asmPushs text ++ [asmHash]

/-- The host accesses of a program without branches, in order (R210). -/
def turnsOf (code : List Stmt) : List Turn :=
  code.filterMap fun stmt =>
    match stmt with
    | .cmd w => some (.host (.write 0 w))
    | .rd _ reg => some (.host (.read reg))
    | .and _ _ _ => none
    | .bne _ _ _ => none
    | .b _ => none

/-- A host that runs a program: the statements, the index of the next one and its variables. -/
structure HostProgram where
  code : List Stmt
  pc : Nat
  vars : List (HostVar × Word)
deriving DecidableEq, Repr

/-- A variable's value; one that was never written holds 0 (log 13). -/
def HostProgram.get (p : HostProgram) (v : HostVar) : Word := (p.vars.lookup v).getD 0

/-- Write a variable. -/
def HostProgram.set (p : HostProgram) (v : HostVar) (w : Word) : HostProgram :=
  { p with vars := (v, w) :: p.vars }

/-- Go to a statement. -/
def HostProgram.goto (p : HostProgram) (label : Nat) : HostProgram := { p with pc := label }

/-- The host with its program, and the block. -/
structure HostedSystem where
  host : HostProgram
  block : State
deriving DecidableEq, Repr

/-- The turn is the block's; `after` says what the host makes of the block's answer. -/
def HostedSystem.perform (turn : Turn) (after : State → HostProgram) (sys : HostedSystem) :
    Host.Outcome HostedSystem Fault Refusal :=
  match takeTurn turn sys.block with
  | .next block => .next { host := after block, block := block }
  | .fault f => .fault f
  | .refused r => .refused r

/-- One statement of the host's program (R78). A host past its last statement does nothing (log 13). -/
def HostedSystem.hostStep (sys : HostedSystem) : Host.Outcome HostedSystem Fault Refusal :=
  let here := sys.host
  let onward := here.goto (here.pc + 1)
  match here.code[here.pc]? with
  | none => .next sys
  | some (.cmd w) => sys.perform (.host (.write 0 w)) fun _ => onward
  | some (.rd v reg) =>
    sys.perform (.host (.read reg)) fun block => onward.set v ((block.reads.head?.map ReadResult.value).getD 0)
  | some (.and vd vs imm) => .next { sys with host := onward.set vd (here.get vs &&& imm) }
  | some (.bne v imm label) => .next { sys with host := if here.get v ≠ imm then here.goto label else onward }
  | some (.b label) => .next { sys with host := here.goto label }

/-- Who steps next (R61): the host's program, the engine, or the reset input. -/
inductive Agent where
  | host
  | engine
  | reset
deriving DecidableEq, Repr

/-- One step of the system by the agent chosen. -/
def HostedSystem.step (who : Agent) (sys : HostedSystem) : Host.Outcome HostedSystem Fault Refusal :=
  match who with
  | .host => sys.hostStep
  | .engine => sys.perform .engine fun _ => sys.host
  | .reset => sys.perform .reset fun _ => sys.host

/-- A run under an interleaving (R61). -/
def HostedSystem.run : List Agent → HostedSystem → Host.Outcome HostedSystem Fault Refusal
  | [], sys => .next sys
  | who :: rest, sys =>
    match sys.step who with
    | .next sys' => HostedSystem.run rest sys'
    | .fault f => .fault f
    | .refused r => .refused r

end Sys2Proof.Machine
end

