-- ==== Sys2Proof/Safety.lean ====
section
/-! DEFINITION. What a safe run is, in the terms the statements use: the invariant of the state, the invariant that ties a
hash in progress to the hash function, how many micro-steps are left, and when two machines look the same to the host. -/

namespace Sys2Proof.Machine

/-- `n` steps of the machine, stopping at the first fault or refusal: `Host.Core.run` of the core, over `State` itself. -/
def run : Nat → State → Outcome
  | 0, s => .next s
  | n + 1, s =>
    match step s with
    | .next t => run n t
    | .fault f => .fault f
    | .refused r => .refused r

/-- Both memories are canonical and have no byte outside their address spaces (R50). -/
abbrev State.memoryOk (s : State) : Prop :=
  s.msg.wf ∧ s.msg.within s.cfg.maxMsgBytes.toNat ∧ s.pad.wf ∧ s.pad.within s.padSize

/-- The ranges the spec gives: MSG_LEN (R22), NB (R24), j while a block is in progress (R30), and
`STATUS.PHASE = DONE` implies `RES_VALID = 1` (R38). -/
abbrev State.positionOk (s : State) : Prop :=
  s.msgLen.toNat ≤ s.cfg.maxMsgBytes.toNat ∧
  (1 ≤ s.nb ∧ s.nb ≤ s.cfg.nbMax) ∧
  (s.phase = .busy → s.seq ≠ .pad → s.j < s.nb) ∧
  (s.phase = .done → s.resValid = true)

/-- The invariant of the machine: the states outside it are reached by no run. -/
abbrev State.Inv (s : State) : Prop := s.memoryOk ∧ s.positionOk

/-- PAD, NB and LEN_BITS are those of the message in the buffer (R102, R103, R65). -/
abbrev State.paddedOk (s : State) : Prop :=
  s.lenBits = bitLength s.msgLen.toNat ∧
  s.nb = blockCount (padBytes s.message) ∧
  ∀ q < 64 * s.nb, s.pad.read q = (padBytes s.message)[q]?.getD 0

/-- Between LOAD of Block j and its FOLD: the accumulator is `St(j)` and X is `W(j)` (R145). -/
abbrev State.blockOk (s : State) : Prop :=
  s.paddedOk ∧ s.j < effectiveBlocks s.cfg.firstBlockOnly s.message ∧
  s.acc = stateAfter s.cfg.kTable s.message s.j

/-- A hash in progress has computed what the hash function says at that point of its run (R194). -/
abbrev State.progressOk (s : State) : Prop :=
  (s.seq = .load → s.blockOk) ∧
  (s.seq = .round → s.blockOk ∧ s.x = messageWords s.message s.j ∧
    s.work = roundsUpTo s.cfg.kTable s.x s.acc s.i.val) ∧
  (s.seq = .fold → s.blockOk ∧ s.x = messageWords s.message s.j ∧
    s.work = roundsUpTo s.cfg.kTable s.x s.acc 64) ∧
  (s.seq = .format → s.acc = hashState s.cfg s.message)

/-- The result registers show one and the same State (R171, R173). -/
abbrev State.resultOk (s : State) : Prop :=
  s.digest = digestWords s.acc ∧ s.hexc = hexChars (digestWords s.acc)

/-- The hash invariant (R194): while BUSY the progress is right, in DONE the results are those of the message in the buffer,
and wherever a result read is defined (R219) the result registers agree. -/
abbrev State.HashInv (s : State) : Prop :=
  (s.phase = .busy → s.progressOk) ∧
  (s.phase = .done → s.acc = hashState s.cfg s.message) ∧
  (s.resultDefined = true → s.resultOk)

/-- How many blocks a BUSY engine has yet to compress, the current one included, after PAD (R189, R193). -/
def State.blocksLeft (s : State) : Nat := if s.cfg.firstBlockOnly then 1 else s.nb - s.j

/-- How many engine micro-steps a hash has yet to take (R192): 66 a block, one FORMAT, and PAD before them. -/
def State.microStepsLeft (s : State) : Nat :=
  if s.phase = .busy then
    match s.seq with
    | .pad => 2 + 66 * effectiveBlocks s.cfg.firstBlockOnly s.message
    | .load => 66 * s.blocksLeft + 1
    | .round => (64 - s.i.val) + 1 + 66 * (s.blocksLeft - 1) + 1
    | .fold => 1 + 66 * (s.blocksLeft - 1) + 1
    | .format => 1
  else 0

/-- The turn that writes a word to CMD (R70, R211). -/
def Turn.command (w : Word) : Turn := .host (.write 0 w)

/-- The turn the next step takes: the first pending one, or the engine's when nothing is pending. -/
def State.nextTurn (s : State) : Turn := s.turns.head?.getD .engine

/-- The next turn writes a command word with operation code `opc` to CMD (R70, R211). -/
abbrev State.nextWrites (opc : Nat) (s : State) : Prop :=
  ∃ w : Word, s.nextTurn = Turn.command w ∧ (w.extractLsb' 24 8).toNat = opc

/-- The next turn writes a CLEAR that is accepted (R213). -/
abbrev State.nextClears (s : State) : Prop := s.nextWrites 1 ∧ s.phase ≠ .busy

/-- The next turn writes a PUSH that is accepted: not BUSY, and MSG_LEN below the capacity (R214). -/
abbrev State.nextPushes (s : State) : Prop :=
  s.nextWrites 2 ∧ s.phase ≠ .busy ∧ s.msgLen.toNat < s.cfg.maxMsgBytes.toNat

/-- The next turn writes a HASH that is accepted (R215). -/
abbrev State.nextHashes (s : State) : Prop := s.nextWrites 3 ∧ s.phase ≠ .busy

/-- The next turn is the micro-step that `seq` names (R185). -/
abbrev State.nextRuns (seq : Seq) (s : State) : Prop :=
  s.nextTurn = .engine ∧ s.phase = .busy ∧ s.seq = seq

/-- The host is at index `w` of its program, and the statements `part` stand there. -/
abbrev HostProgram.holdsAt (p : HostProgram) (w : Nat) (part : List Stmt) : Prop :=
  p.pc = w ∧ ∀ k < part.length, p.code[w + k]? = part[k]?

/-- What the host can learn of the parameters, and what a result depends on (R197): everything but CYCLES_PER_STEP. -/
abbrev sameParameters (s t : State) : Prop :=
  s.cfg.maxMsgBytes = t.cfg.maxMsgBytes ∧ s.cfg.firstBlockOnly = t.cfg.firstBlockOnly ∧
  s.cfg.kTable = t.cfg.kTable

/-- Two machines that have just left reset: the items to which R261 gives a value have it, and the surroundings are the
same. The items R261 calls unspecified may differ in any way the ranges of the state allow. -/
abbrev bothJustReset (s t : State) : Prop :=
  (s.Inv ∧ t.Inv) ∧ sameParameters s t ∧
  (s.phase = .idle ∧ t.phase = .idle) ∧ (s.msgLen = 0 ∧ t.msgLen = 0) ∧
  (s.errCmd = false ∧ t.errCmd = false) ∧ (s.errBusy = false ∧ t.errBusy = false) ∧
  (s.errFull = false ∧ t.errFull = false) ∧ (s.resValid = false ∧ t.resValid = false) ∧
  s.turns = t.turns ∧ s.reads = t.reads ∧ s.draws = t.draws

end Sys2Proof.Machine
end

