-- ==== Sys2Proof/Certificates/Slice0/Obligations.lean ====
section
/-! DEFINITION. The statements for the provers, each a numbered rule of the spec or a consequence of several.
`opc w`, the operation code of a command word, is written out as bits [31:24] where a statement speaks of words. -/

open Sys2Proof Sys2Proof.Machine

/-! ## Command words -/

/-- R73 and R76: the opcode map, by the bits of the word. -/
def Obligations.OpcodeMapOfEveryWord : Prop :=
  ∀ w : Word,
    ((w.extractLsb' 24 8).toNat = 0 → decode w = .nop) ∧
    ((w.extractLsb' 24 8).toNat = 1 → decode w = .clear) ∧
    ((w.extractLsb' 24 8).toNat = 2 → decode w = .push (w.extractLsb' 0 8)) ∧
    ((w.extractLsb' 24 8).toNat = 3 → decode w = .hash) ∧
    (4 ≤ (w.extractLsb' 24 8).toNat → decode w = .reserved (w.extractLsb' 24 8))

/-- R75: words that agree in OPC, and in DATA where OPC is that of PUSH, are the same command and have the same effect. -/
def Obligations.IgnoredBitsChangeNothing : Prop :=
  ∀ (w v : Word) (s : State) (rest : List Turn),
    w.extractLsb' 24 8 = v.extractLsb' 24 8 →
    (w.extractLsb' 24 8 = 2 → w.extractLsb' 0 8 = v.extractLsb' 0 8) →
    decode w = decode v ∧
    step { s with turns := Turn.command w :: rest } = step { s with turns := Turn.command v :: rest }

/-- Every command is the decoding of its own word, whose RSV bits are 0; and the decoding of any word is a command of the
block that its own word decodes to again. -/
def Obligations.DecodeOfEncodeIsTheCommand : Prop :=
  (∀ i : Instr, i.wf = true → decode (encode i) = i ∧ (encode i).extractLsb' 8 16 = 0) ∧
  (∀ w : Word, (decode w).wf = true ∧ decode (encode (decode w)) = decode w)

/-- R81: the worked encodings. -/
def Obligations.WorkedCommandWordsDecode : Prop :=
  decode 0x02000061 = .push 0x61 ∧ decode 0x02000080 = .push 0x80 ∧ decode 0x03000000 = .hash ∧
  decode 0x04000000 = .reserved 0x04 ∧ decode 0x0200ff61 = .push 0x61

/-! ## The step -/

/-- A step performs the command word that the host's next access writes to CMD, in the state with that turn taken off.
The second clause is the model's: `withFetchWord` puts such an access first, the design choice of log 12. -/
def Obligations.StepPerformsTheWrittenCommand : Prop :=
  (∀ (s : State) (w : Word) (rest : List Turn), s.turns = .host (.write 0 w) :: rest →
    step s = exec (decode w) { s with turns := rest }) ∧
  (∀ (s : State) (w : Word), step (s.withFetchWord 32 w.toNat) = exec (decode w) s)

/-- A step with an engine turn first, or with nothing pending (the model's choice, log 6), is the engine's turn.
A BUSY engine runs the micro-step that SEQ names, and an engine that is not BUSY changes nothing (R185). -/
def Obligations.StepRunsTheEngine : Prop :=
  ∀ s : State,
    (∀ rest, s.turns = .engine :: rest → step s = engineTurn { s with turns := rest }) ∧
    (s.turns = [] → step s = engineTurn s) ∧
    (s.phase ≠ .busy → engineTurn s = .next s) ∧
    (s.phase = .busy → s.seq = .pad → engineTurn s = stepPad s) ∧
    (s.phase = .busy → s.seq = .load → engineTurn s = stepLoad s) ∧
    (s.phase = .busy → s.seq = .round → engineTurn s = stepRound s) ∧
    (s.phase = .busy → s.seq = .fold → engineTurn s = stepFold s) ∧
    (s.phase = .busy → s.seq = .format → engineTurn s = stepFormat s)

/-! ## Commands -/

/-- R212: NOP answers the state it is given, in every phase, whatever bits [23:0] of its word are. -/
def Obligations.NopChangesNothing : Prop :=
  (∀ s : State, exec .nop s = .next s) ∧
  (∀ (s : State) (w : Word) (rest : List Turn), s.turns = Turn.command w :: rest →
    w.extractLsb' 24 8 = 0 → step s = .next { s with turns := rest })

/-- R213: CLEAR when accepted, and while BUSY. -/
def Obligations.ClearEmptiesTheMessageAndTheErrors : Prop :=
  ∀ s : State,
    (s.phase ≠ .busy → exec .clear s =
      .next { s with msgLen := 0, errCmd := false, errBusy := false, errFull := false, phase := .idle }) ∧
    (s.phase = .busy → exec .clear s = .next { s with errBusy := true })

/-- R214: PUSH when accepted, its memory read byte by byte, and its two errors. -/
def Obligations.PushAppendsOneByte : Prop :=
  ∀ (s : State) (data : Byte), s.msg.wf →
    (s.phase ≠ .busy → s.msgLen.toNat < s.cfg.maxMsgBytes.toNat →
      ∃ t : State, exec (.push data) s = .next t ∧
        t.msg.read s.msgLen.toNat = data ∧
        (∀ a, a ≠ s.msgLen.toNat → t.msg.read a = s.msg.read a) ∧
        t.msgLen.toNat = s.msgLen.toNat + 1 ∧ t.phase = .idle ∧
        t = { s with msg := t.msg, msgLen := t.msgLen, phase := t.phase }) ∧
    (s.phase ≠ .busy → s.msgLen = s.cfg.maxMsgBytes → exec (.push data) s = .next { s with errFull := true }) ∧
    (s.phase = .busy → exec (.push data) s = .next { s with errBusy := true })

/-- The message after an accepted PUSH is the message before it with the byte at its end (R21, R214). -/
def Obligations.PushExtendsTheMessage : Prop :=
  ∀ (s t : State) (data : Byte), s.msg.wf → s.phase ≠ .busy → s.msgLen.toNat < s.cfg.maxMsgBytes.toNat →
    exec (.push data) s = .next t → t.message = s.message ++ [data]

/-- R215: HASH when accepted, and while BUSY. -/
def Obligations.HashStartsTheEngine : Prop :=
  ∀ s : State,
    (s.phase ≠ .busy → exec .hash s = .next { s with phase := .busy, seq := .pad }) ∧
    (s.phase = .busy → exec .hash s = .next { s with errBusy := true })

/-- R216 and R74: a reserved command raises ERR_CMD in every phase and has no other effect. -/
def Obligations.ReservedCommandRaisesErrCmd : Prop :=
  (∀ (s : State) (opc : Byte), exec (.reserved opc) s = .next { s with errCmd := true }) ∧
  (∀ (s : State) (w : Word) (rest : List Turn), s.turns = Turn.command w :: rest →
    4 ≤ (w.extractLsb' 24 8).toNat → step s = .next { s with turns := rest, errCmd := true })

/-- R211: command dispatch, test by test in the order of the rule. -/
def Obligations.CommandDispatchOrder : Prop :=
  ∀ (s : State) (w : Word) (rest : List Turn), s.turns = Turn.command w :: rest →
    s.msgLen.toNat ≤ s.cfg.maxMsgBytes.toNat →
    step s = .next
      (if 4 ≤ (w.extractLsb' 24 8).toNat then { s with turns := rest, errCmd := true }
      else if (w.extractLsb' 24 8).toNat = 0 then { s with turns := rest }
      else if s.phase = .busy then { s with turns := rest, errBusy := true }
      else if (w.extractLsb' 24 8).toNat = 1 then
        { s with turns := rest, msgLen := 0, errCmd := false, errBusy := false, errFull := false, phase := .idle }
      else if (w.extractLsb' 24 8).toNat = 2 then
        if s.msgLen = s.cfg.maxMsgBytes then { s with turns := rest, errFull := true }
        else { s with turns := rest, msg := s.msg.write s.msgLen.toNat (w.extractLsb' 0 8), msgLen := s.msgLen + 1, phase := .idle }
      else { s with turns := rest, phase := .busy, seq := .pad })

/-- R243: one command sets at most one error bit that was clear, and the first of the tests that applies is the one. -/
def Obligations.OneCommandRaisesOneError : Prop :=
  ∀ (s t : State) (w : Word) (rest : List Turn), s.turns = Turn.command w :: rest → step s = .next t →
    (4 ≤ (w.extractLsb' 24 8).toNat → t = { s with turns := rest, errCmd := true }) ∧
    (1 ≤ (w.extractLsb' 24 8).toNat → (w.extractLsb' 24 8).toNat ≤ 3 → s.phase = .busy →
      t = { s with turns := rest, errBusy := true }) ∧
    ((w.extractLsb' 24 8).toNat = 2 → s.phase ≠ .busy → s.msgLen = s.cfg.maxMsgBytes →
      t = { s with turns := rest, errFull := true }) ∧
    ((t.errCmd && !s.errCmd).toNat + (t.errBusy && !s.errBusy).toNat + (t.errFull && !s.errFull).toNat ≤ 1)

/-- The frame of the commands: what an instruction leaves unchanged. Every byte of MSG is as before but the one PUSH
appends, at address MSG_LEN. -/
def Obligations.CommandFrame : Prop :=
  ∀ (i : Instr) (s t : State), s.msg.wf → exec i s = .next t →
    (∀ a, ¬((∃ data, i = .push data) ∧ s.phase ≠ .busy ∧ s.msgLen ≠ s.cfg.maxMsgBytes ∧ a = s.msgLen.toNat) →
      t.msg.read a = s.msg.read a) ∧
    (i ≠ .clear → (∀ data, i ≠ .push data) → t.msgLen = s.msgLen) ∧
    (i ≠ .hash → t.seq = s.seq) ∧
    (i = .nop ∨ (∃ opc, i = .reserved opc) → t.phase = s.phase) ∧
    t.cfg = s.cfg ∧ t.lenBits = s.lenBits ∧ t.pad = s.pad ∧ t.nb = s.nb ∧ t.acc = s.acc ∧ t.work = s.work ∧
    t.x = s.x ∧ t.j = s.j ∧ t.i = s.i ∧ t.digest = s.digest ∧ t.hexc = s.hexc ∧ t.resValid = s.resValid ∧
    t.turns = s.turns ∧ t.reads = s.reads ∧ t.draws = s.draws

/-! ## The host port -/

/-- R218: a write to CMD is a command, and a write to any other register changes no state and raises no error. -/
def Obligations.WritesToOtherRegistersAreIgnored : Prop :=
  ∀ (s : State) (n : RegNum) (w : Word) (rest : List Turn), s.turns = .host (.write n w) :: rest →
    (n.toNat = 0 → step s = exec (decode w) { s with turns := rest }) ∧
    (n.toNat ≠ 0 → step s = .next { s with turns := rest })

/-- R217: the value of every register read, where R219 makes it defined; nothing changes but the host's record of it. -/
def Obligations.RegisterReadValues : Prop :=
  ∀ (s : State) (n : RegNum) (rest : List Turn), s.turns = .host (.read n) :: rest →
    (4 ≤ n.toNat → n.toNat ≤ 19 → s.phase ≠ .busy ∧ s.resValid = true) →
    ∃ v : Word, step s = .next { s with turns := rest, reads := ⟨n, v⟩ :: s.reads } ∧
      (n.toNat = 0 → v = 0) ∧
      (n.toNat = 1 → v.toNat =
        (match s.phase with | .idle => 0 | .busy => 1 | .done => 2) + 4 * s.errCmd.toNat + 8 * s.errBusy.toNat
          + 16 * s.errFull.toNat + 32 * s.cfg.firstBlockOnly.toNat) ∧
      (n.toNat = 2 → v = s.msgLen) ∧ (n.toNat = 3 → v = s.cfg.maxMsgBytes) ∧
      (n.toNat = 4 → v = s.acc.a) ∧ (n.toNat = 5 → v = s.acc.b) ∧
      (n.toNat = 6 → v = s.acc.c) ∧ (n.toNat = 7 → v = s.acc.d) ∧
      (∀ k : Fin 4, n.toNat = 8 + k.val → v = s.digest[k]) ∧
      (∀ k : Fin 8, n.toNat = 12 + k.val → v.toNat =
        (s.hexc[4 * k.val]).toNat + 2 ^ 8 * (s.hexc[4 * k.val + 1]).toNat
          + 2 ^ 16 * (s.hexc[4 * k.val + 2]).toNat + 2 ^ 24 * (s.hexc[4 * k.val + 3]).toNat) ∧
      (20 ≤ n.toNat → v = 0)

/-- R219: a read of registers 4 to 19 while BUSY, or before the first FORMAT, takes the next draw and no other. -/
def Obligations.UndefinedResultReadsAreDraws : Prop :=
  ∀ (s : State) (n : RegNum) (rest : List Turn), s.turns = .host (.read n) :: rest →
    4 ≤ n.toNat → n.toNat ≤ 19 → (s.phase = .busy ∨ s.resValid = false) →
    step s = .next { s with
      turns := rest
      reads := ⟨n, Config.unspecified s.draws⟩ :: s.reads
      draws := s.draws + 1 }

/-- R59: a read has no side effect on the block, and two reads of one register with nothing between them give the same
value where the value is defined. -/
def Obligations.ReadsAreIdempotent : Prop :=
  ∀ (s : State) (n : RegNum) (rest : List Turn), s.turns = .host (.read n) :: .host (.read n) :: rest →
    (∃ (v : Word) (k : Nat), step s =
      .next { s with turns := .host (.read n) :: rest, reads := ⟨n, v⟩ :: s.reads, draws := k }) ∧
    ((4 ≤ n.toNat → n.toNat ≤ 19 → s.phase ≠ .busy ∧ s.resValid = true) →
      ∃ v : Word, run 2 s =
        .next { s with turns := rest, reads := ⟨n, v⟩ :: ⟨n, v⟩ :: s.reads })

/-- R56: a host that stores HEX0 to HEX7 to a little-endian memory gets the 32 characters in order. -/
def Obligations.HexRegistersStoreInStringOrder : Prop :=
  ∀ hexc : Vector Byte 32,
    (List.finRange 8).flatMap (fun n => le32Bytes (hexWord hexc n)) = hexc.toList

/-- R33: which turns set an error bit and which clear one, over every step of the machine. -/
def Obligations.OnlyRaiseSetsAndOnlyClearOrResetClears : Prop :=
  ∀ s t : State, step s = .next t →
    (s.errCmd = false → t.errCmd = true →
      ∃ w : Word, s.nextTurn = Turn.command w ∧ 4 ≤ (w.extractLsb' 24 8).toNat) ∧
    (s.errBusy = false → t.errBusy = true →
      ∃ w : Word, s.nextTurn = Turn.command w ∧ 1 ≤ (w.extractLsb' 24 8).toNat ∧
        (w.extractLsb' 24 8).toNat ≤ 3 ∧ s.phase = .busy) ∧
    (s.errFull = false → t.errFull = true →
      ∃ w : Word, s.nextTurn = Turn.command w ∧ (w.extractLsb' 24 8).toNat = 2 ∧ s.phase ≠ .busy ∧
        s.msgLen = s.cfg.maxMsgBytes) ∧
    ((s.errCmd = true ∧ t.errCmd = false) ∨ (s.errBusy = true ∧ t.errBusy = false) ∨
        (s.errFull = true ∧ t.errFull = false) →
      s.nextTurn = .reset ∨
      ∃ w : Word, s.nextTurn = Turn.command w ∧ (w.extractLsb' 24 8).toNat = 1 ∧ s.phase ≠ .busy)

/-! ## Padding -/

/-- R102 in words, R103 and R186: what PAD leaves, its padded bytes read one by one. -/
def Obligations.PadMicroStepWritesThePaddedMessage : Prop :=
  ∀ s : State, s.phase = .busy → s.seq = .pad → s.msgLen.toNat ≤ s.cfg.maxMsgBytes.toNat → s.pad.wf →
    ∃ t : State, engineTurn s = .next t ∧
      t.lenBits.toNat = 8 * s.msgLen.toNat ∧
      t.nb = (s.msgLen.toNat + 8) / 64 + 1 ∧
      (∀ q, q < s.msgLen.toNat → t.pad.read q = s.msg.read q) ∧
      t.pad.read s.msgLen.toNat = 0x80 ∧
      (∀ q, s.msgLen.toNat < q → q < 64 * t.nb - 8 → t.pad.read q = 0) ∧
      (∀ k, k < 8 → t.pad.read (64 * t.nb - 8 + k) = BitVec.ofNat 8 (8 * s.msgLen.toNat / 2 ^ (8 * k))) ∧
      (∀ q, 64 * t.nb ≤ q → t.pad.read q = s.pad.read q) ∧
      t.acc = ⟨0x01234567, 0x89abcdef, 0xfedcba98, 0x76543210⟩ ∧ t.j = 0 ∧ t.seq = .load ∧
      t = { s with lenBits := t.lenBits, pad := t.pad, nb := t.nb, acc := t.acc, j := t.j, seq := t.seq }

/-- R104: how long the padded message is. -/
def Obligations.PaddedLengthIsWholeBlocks : Prop :=
  ∀ m : List Byte,
    (padBytes m).length = 64 * blockCount (padBytes m) ∧
    blockCount (padBytes m) = (m.length + 8) / 64 + 1 ∧
    m.length + 8 < (padBytes m).length ∧
    ∀ cfg : Config, m.length ≤ cfg.maxMsgBytes.toNat →
      1 ≤ blockCount (padBytes m) ∧ blockCount (padBytes m) ≤ cfg.nbMax

/-- R105: the padding adds 72 to 576 bits, and where each bound is met. -/
def Obligations.PaddingAddsSeventyTwoToFiveHundredSeventySixBits : Prop :=
  ∀ m : List Byte,
    72 ≤ 8 * ((padBytes m).length - m.length) ∧ 8 * ((padBytes m).length - m.length) ≤ 576 ∧
    (8 * ((padBytes m).length - m.length) = 72 ↔ m.length % 64 = 55) ∧
    (8 * ((padBytes m).length - m.length) = 576 ↔ m.length % 64 = 56)

/-- R101 and R102: the padded bytes are the padded bits, most significant bit first in each byte, and the number of 0 bits
of step 3 is the least that reaches a length ≡ 448 (mod 512). -/
def Obligations.BytePaddingIsTheBitPadding : Prop :=
  ∀ m : List Byte,
    bitsOf (padBytes m) = padBits m ∧
    (8 * m.length + 1 + zeroBitCount (8 * m.length)) % 512 = 448 ∧
    (∀ z, z < zeroBitCount (8 * m.length) → (8 * m.length + 1 + z) % 512 ≠ 448) ∧
    zeroBitCount (8 * m.length) = 7 + 8 * zeroCount m.length

/-- R103: the captured length is exact in this block, and bytes 5 to 7 of the length field are 0. -/
def Obligations.CapturedLengthNeverWraps : Prop :=
  ∀ s t : State, s.phase = .busy → s.seq = .pad → s.pad.wf → engineTurn s = .next t →
    t.lenBits.toNat = 8 * s.msgLen.toNat % 2 ^ 64 ∧
    t.lenBits.toNat = 8 * s.msgLen.toNat ∧ t.lenBits.toNat < 2 ^ 35 ∧
    ∀ k, 5 ≤ k → k ≤ 7 → t.pad.read (64 * t.nb - 8 + k) = 0

/-! ## Blocks, rounds, the fold and the formatter -/

/-- R121 and R187: LOAD, word by word. -/
def Obligations.LoadMicroStepReadsTheBlock : Prop :=
  ∀ s : State, s.phase = .busy → s.seq = .load → s.j < s.cfg.nbMax →
    ∃ t : State, engineTurn s = .next t ∧
      (∀ k : Fin 16, (t.x[k]).toNat =
        (s.pad.read (64 * s.j + 4 * k.val)).toNat + 2 ^ 8 * (s.pad.read (64 * s.j + 4 * k.val + 1)).toNat
          + 2 ^ 16 * (s.pad.read (64 * s.j + 4 * k.val + 2)).toNat
          + 2 ^ 24 * (s.pad.read (64 * s.j + 4 * k.val + 3)).toNat) ∧
      t = { s with x := t.x, work := s.acc, i := 0, seq := .round }

/-- Where the padding lands in the words (R123): the marker byte, and the length in words 14 and 15 of the last block.
R123 adds that word 15 is 0 there; by its own line before that and R103 it is 0 for messages under 2^29 bytes and no
others, and below 8 for every message, and so says this (log 14). -/
def Obligations.PaddingInTheWords : Prop :=
  ∀ m : List Byte, m.length < 2 ^ 32 →
    ((messageWords m (m.length / 64))[m.length % 64 / 4]'(by omega)).extractLsb' (8 * (m.length % 4)) 8 = 0x80 ∧
    (messageWords m (blockCount (padBytes m) - 1))[14] = (bitLength m.length).extractLsb' 0 32 ∧
    (messageWords m (blockCount (padBytes m) - 1))[15] = (bitLength m.length).extractLsb' 32 32 ∧
    ((messageWords m (blockCount (padBytes m) - 1))[15] = 0 ↔ m.length < 2 ^ 29) ∧
    (messageWords m (blockCount (padBytes m) - 1))[15].toNat < 8

/-- R10: the rotation, by arithmetic, and as the rotation of the library. -/
def Obligations.RotationReentersTheHighBits : Prop :=
  ∀ (x : Word) (n : Nat), 1 ≤ n → n ≤ 31 →
    (rotl32 x n).toNat = x.toNat * 2 ^ n % 2 ^ 32 + x.toNat / 2 ^ (32 - n) ∧ rotl32 x n = x.rotateLeft n

/-- R136 to R139, R141 and R188: one round, every table and function written out. -/
def Obligations.RoundMicroStep : Prop :=
  ∀ s : State, s.phase = .busy → s.seq = .round →
    let b := s.work.b
    let c := s.work.c
    let d := s.work.d
    let f : Word :=
      if s.i.val < 16 then (b &&& c) ||| ((b ^^^ 0xffffffff) &&& d)
      else if s.i.val < 32 then (b &&& d) ||| (c &&& (d ^^^ 0xffffffff))
      else if s.i.val < 48 then b ^^^ c ^^^ d
      else c ^^^ (b ||| (d ^^^ 0xffffffff))
    let amounts : List Nat :=
      if s.i.val < 16 then [7, 12, 17, 22]
      else if s.i.val < 32 then [5, 9, 14, 20]
      else if s.i.val < 48 then [4, 11, 16, 23]
      else [6, 10, 15, 21]
    let sum : Word := BitVec.ofNat 32
      (f.toNat + (s.x[s.i.val % 16]).toNat + (s.cfg.kTable[s.i]).toNat + s.work.a.toNat)
    let work : Quad := ⟨d, sum.rotateLeft (amounts[s.i.val % 4]?.getD 0) + b, b, c⟩
    (s.i.val = 63 → engineTurn s = .next { s with work := work, seq := .fold }) ∧
    (s.i.val < 63 → ∃ t : State, engineTurn s = .next t ∧ t.i.val = s.i.val + 1 ∧
      t = { s with work := work, i := t.i })

/-- R143, R189 and R193: the fold, and where it goes. -/
def Obligations.FoldMicroStep : Prop :=
  ∀ s : State, s.phase = .busy → s.seq = .fold →
    ∃ t : State, engineTurn s = .next t ∧
      t.acc.a.toNat = (s.acc.a.toNat + s.work.a.toNat) % 2 ^ 32 ∧
      t.acc.b.toNat = (s.acc.b.toNat + s.work.b.toNat) % 2 ^ 32 ∧
      t.acc.c.toNat = (s.acc.c.toNat + s.work.c.toNat) % 2 ^ 32 ∧
      t.acc.d.toNat = (s.acc.d.toNat + s.work.d.toNat) % 2 ^ 32 ∧
      (s.cfg.firstBlockOnly = true ∨ s.j + 1 = s.nb → t = { s with acc := t.acc, seq := .format }) ∧
      (s.cfg.firstBlockOnly = false → s.j + 1 ≠ s.nb → t = { s with acc := t.acc, j := s.j + 1, seq := .load })

/-- R171, R173 and R190: FORMAT, byte by byte and digit by digit. -/
def Obligations.FormatMicroStep : Prop :=
  ∀ s : State, s.phase = .busy → s.seq = .format →
    ∃ t : State, engineTurn s = .next t ∧
      (∀ k : Fin 4, let w : Word := [s.acc.a, s.acc.b, s.acc.c, s.acc.d][k]
        (t.digest[k]).toNat = w.toNat / 2 ^ 24 % 256 + 2 ^ 8 * (w.toNat / 2 ^ 16 % 256)
          + 2 ^ 16 * (w.toNat / 2 ^ 8 % 256) + 2 ^ 24 * (w.toNat % 256)) ∧
      (∀ (k : Fin 4) (p : Fin 8),
        let digit := (t.digest[k]).toNat / 2 ^ (28 - 4 * p.val) % 16
        (t.hexc[8 * k.val + p.val]).toNat = if digit ≤ 9 then 0x30 + digit else 0x61 + (digit - 10)) ∧
      t = { s with digest := t.digest, hexc := t.hexc, resValid := true, phase := .done }

/-- R174: the hex string is the 16 Digest bytes of R170, two digits each, high nibble first. -/
def Obligations.HexStringIsTheDigestBytes : Prop :=
  ∀ (st : Quad) (q : Fin 16), ∃ b : Byte, (digestBytes st)[q.val]? = some b ∧
    (hexChars (digestWords st))[2 * q.val] = hexDigit (b.extractLsb' 4 4) ∧
    (hexChars (digestWords st))[2 * q.val + 1] = hexDigit (b.extractLsb' 0 4)

/-- R175: every character is a lowercase hex digit, and there are 32 of them. -/
def Obligations.HexCharactersAreLowercaseHexDigits : Prop :=
  ∀ d : Vector Word 4, (hexChars d).toList.length = 32 ∧
    ∀ c ∈ (hexChars d).toList, (0x30 ≤ c.toNat ∧ c.toNat ≤ 0x39) ∨ (0x61 ≤ c.toNat ∧ c.toNat ≤ 0x66)

/-- R191: the transition table of the sequencer: the row of HASH, and the engine's turn in a BUSY state. -/
def Obligations.SequencerTransitionTable : Prop :=
  (∀ s t : State, s.phase ≠ .busy → exec .hash s = .next t →
    t.phase = .busy ∧ t.seq = .pad ∧ t.j = s.j ∧ t.i = s.i) ∧
  ∀ s t : State, s.phase = .busy → engineTurn s = .next t →
    (s.seq = .pad → t.phase = .busy ∧ t.seq = .load ∧ t.j = 0 ∧ t.i = s.i) ∧
    (s.seq = .load → t.phase = .busy ∧ t.seq = .round ∧ t.j = s.j ∧ t.i = 0) ∧
    (s.seq = .round → s.i.val < 63 → t.phase = .busy ∧ t.seq = .round ∧ t.j = s.j ∧ t.i.val = s.i.val + 1) ∧
    (s.seq = .round → s.i.val = 63 → t.phase = .busy ∧ t.seq = .fold ∧ t.j = s.j ∧ t.i = s.i) ∧
    (s.seq = .fold → s.cfg.firstBlockOnly = true ∨ s.j + 1 = s.nb →
      t.phase = .busy ∧ t.seq = .format ∧ t.j = s.j ∧ t.i = s.i) ∧
    (s.seq = .fold → s.cfg.firstBlockOnly = false → s.j + 1 ≠ s.nb →
      t.phase = .busy ∧ t.seq = .load ∧ t.j = s.j + 1 ∧ t.i = s.i) ∧
    (s.seq = .format → t.phase = .done ∧ t.j = s.j ∧ t.i = s.i)

/-- A message of at most 55 bytes has one block, and its result is the same under both values of FIRST_BLOCK_ONLY (D8). -/
def Obligations.SingleBlockResultsIgnoreFirstBlockOnly : Prop :=
  ∀ (cfg : Config) (m : List Byte), m.length ≤ 55 →
    hashState { cfg with firstBlockOnly := true } m = hashState { cfg with firstBlockOnly := false } m ∧
    hashState cfg m = compress cfg.kTable iv (messageWords m 0)

/-! ## Reset -/

/-- R261, the rows that give a value, of the state right after reset, with the default parameter of R6. -/
def Obligations.ResetStateValues : Prop :=
  State.reset.phase = .idle ∧ State.reset.errCmd = false ∧ State.reset.errBusy = false ∧
  State.reset.errFull = false ∧ State.reset.msgLen = 0 ∧ State.reset.resValid = false ∧
  State.reset.cfg.firstBlockOnly = false ∧ State.reset.message = []

/-- R260: the reset input in any phase, BUSY included; a hash in progress is abandoned.
That reset keeps the pending turns, the host's record of reads, the count of draws and CYCLES_PER_STEP is the model's
choice (logs 3, 5, 7, 8 and 11). -/
def Obligations.ResetInputAbandonsTheHash : Prop :=
  ∀ (s : State) (rest : List Turn), s.turns = .reset :: rest →
    ∃ t : State, step s = .next t ∧
      t.phase = .idle ∧ t.errCmd = false ∧ t.errBusy = false ∧ t.errFull = false ∧ t.msgLen = 0 ∧
      t.resValid = false ∧ t.cfg = s.cfg ∧ t.turns = rest ∧ t.reads = s.reads ∧ t.draws = s.draws ∧
      engineTurn t = .next t

/-! ## The whole machine -/

/-- The invariant holds right after reset. -/
def Obligations.ResetMeetsTheInvariant : Prop := State.reset.Inv

/-- The invariant is kept by every step: canonical memories inside their address spaces, MSG_LEN, NB and j in their ranges,
and RES_VALID in DONE. -/
def Obligations.EveryStepKeepsTheInvariant : Prop :=
  ∀ s t : State, s.Inv → step s = .next t → t.Inv

/-- No behaviour of the block faults or hangs: under the invariant every step, whoever takes it, has a next state. -/
def Obligations.NoStepStops : Prop :=
  ∀ s : State, s.Inv → ∃ t : State, step s = .next t

/-- CAPACITY, FBO and K are hardwired: no step changes them, the reset input included (R35, R32, R261). -/
def Obligations.NoStepChangesTheParameters : Prop :=
  ∀ s t : State, step s = .next t →
    t.cfg.maxMsgBytes = s.cfg.maxMsgBytes ∧ t.cfg.firstBlockOnly = s.cfg.firstBlockOnly ∧
    t.cfg.kTable = s.cfg.kTable

/-- The model's choice (logs 1 and 11), no rule of the spec: CYCLES_PER_STEP is one value for a run.
R268 lets an implementation vary it between steps, and no step of the model reads it. -/
def Obligations.ModelHoldsOneCyclesPerStep : Prop :=
  ∀ s t : State, step s = .next t → t.cfg.cyclesPerStep = s.cfg.cyclesPerStep

/-- Who writes each item, every row of R37: a step that changes one is a step of the operations the table names for it, or
reset.
A command is accepted when it passes the tests of R211; of the errors, ERR_CMD is raised by a reserved command, ERR_BUSY by
a command while BUSY, ERR_FULL by PUSH at the capacity (R241), and an accepted CLEAR clears them. -/
def Obligations.WritersOfEachItem : Prop :=
  ∀ s t : State, step s = .next t → s.nextTurn ≠ .reset →
    (t.msg ≠ s.msg → s.nextPushes) ∧
    (t.msgLen ≠ s.msgLen → s.nextPushes ∨ s.nextClears) ∧
    (t.lenBits ≠ s.lenBits ∨ t.pad ≠ s.pad ∨ t.nb ≠ s.nb → s.nextRuns .pad) ∧
    (t.acc ≠ s.acc → s.nextRuns .pad ∨ s.nextRuns .fold) ∧
    (t.work ≠ s.work → s.nextRuns .load ∨ s.nextRuns .round) ∧
    (t.x ≠ s.x → s.nextRuns .load) ∧
    (t.phase ≠ s.phase →
      (t.phase = .idle ∧ (s.nextPushes ∨ s.nextClears)) ∨ (t.phase = .busy ∧ s.nextHashes) ∨
      (t.phase = .done ∧ s.nextRuns .format)) ∧
    (t.seq ≠ s.seq →
      s.nextHashes ∨ s.nextRuns .pad ∨ s.nextRuns .load ∨ s.nextRuns .round ∨ s.nextRuns .fold) ∧
    (t.j ≠ s.j → s.nextRuns .pad ∨ s.nextRuns .fold) ∧
    (t.i ≠ s.i → s.nextRuns .load ∨ s.nextRuns .round) ∧
    (t.digest ≠ s.digest ∨ t.hexc ≠ s.hexc ∨ t.resValid ≠ s.resValid → s.nextRuns .format) ∧
    (t.errCmd ≠ s.errCmd →
      (t.errCmd = true ∧ ∃ opc, 4 ≤ opc ∧ s.nextWrites opc) ∨ (t.errCmd = false ∧ s.nextClears)) ∧
    (t.errBusy ≠ s.errBusy →
      (t.errBusy = true ∧ s.phase = .busy ∧ (s.nextWrites 1 ∨ s.nextWrites 2 ∨ s.nextWrites 3)) ∨
      (t.errBusy = false ∧ s.nextClears)) ∧
    (t.errFull ≠ s.errFull →
      (t.errFull = true ∧ s.phase ≠ .busy ∧ s.msgLen = s.cfg.maxMsgBytes ∧ s.nextWrites 2) ∨
      (t.errFull = false ∧ s.nextClears))

/-- R38: only FORMAT sets RES_VALID, only reset clears it, and DONE implies it. -/
def Obligations.ResultValidOnlyByFormat : Prop :=
  (∀ s t : State, step s = .next t →
    (s.resValid = false → t.resValid = true → s.nextTurn = .engine ∧ s.phase = .busy ∧ s.seq = .format) ∧
    (s.resValid = true → t.resValid = false → s.nextTurn = .reset)) ∧
  (∀ s t : State, (s.phase = .done → s.resValid = true) → step s = .next t → t.phase = .done → t.resValid = true)

/-- No host action can stop, pause or cancel a BUSY engine (R195): BUSY ends by FORMAT or by reset only. -/
def Obligations.BusyEndsOnlyByFormatOrReset : Prop :=
  ∀ s t : State, s.phase = .busy → step s = .next t →
    t.phase = .busy ∨ (s.nextTurn = .engine ∧ s.seq = .format ∧ t.phase = .done) ∨ s.nextTurn = .reset

/-- A host access to a BUSY block changes nothing of the hash: at most an error bit, and the host's own record. -/
def Obligations.HostCannotDisturbABusyHash : Prop :=
  ∀ (s t : State) (access : Access) (rest : List Turn), s.phase = .busy → s.turns = .host access :: rest →
    step s = .next t →
    t = { s with turns := rest, errCmd := t.errCmd, errBusy := t.errBusy, reads := t.reads, draws := t.draws }

/-- After DONE the results stay what they are until the host starts another HASH or a reset occurs (R63). -/
def Obligations.ResultsStayUntilHashOrReset : Prop :=
  ∀ s t : State, s.phase ≠ .busy → s.resValid = true → step s = .next t → s.nextTurn ≠ .reset →
    (∀ w : Word, s.nextTurn = Turn.command w → (w.extractLsb' 24 8).toNat ≠ 3) →
    t.phase ≠ .busy ∧ t.resValid = true ∧ t.acc = s.acc ∧ t.digest = s.digest ∧ t.hexc = s.hexc

/-- Every engine micro-step of a hash takes one off the count of R192, and no host access changes it. -/
def Obligations.MicroStepsLeftCountsDown : Prop :=
  ∀ s t : State, s.Inv → s.phase = .busy → step s = .next t →
    (s.nextTurn = .engine → t.microStepsLeft + 1 = s.microStepsLeft) ∧
    (∀ access, s.nextTurn = .host access → t.microStepsLeft = s.microStepsLeft) ∧
    (0 < t.microStepsLeft ↔ t.phase = .busy)

/-- R192: a hash takes exactly `2 + 66·NB_eff` micro-steps from the state HASH leaves to DONE. -/
def Obligations.HashTakesExactlyTheCountedMicroSteps : Prop :=
  ∀ s : State, s.Inv → s.phase = .busy → s.seq = .pad → s.turns = [] →
    let count := 2 + 66 * (if s.cfg.firstBlockOnly then 1 else (s.msgLen.toNat + 8) / 64 + 1)
    (∀ n, n < count → ∃ t : State, run n s = .next t ∧ t.phase = .busy) ∧
    (∃ t : State, run count s = .next t ∧ t.phase = .done)

/-- The hash invariant holds right after reset. -/
def Obligations.ResetMeetsTheHashInvariant : Prop := State.reset.HashInv

/-- The micro-steps agree with the hash function under every interleaving of host accesses, micro-steps and resets (R194,
R61): while BUSY the progress is `St(j)` and the rounds done, in DONE the accumulator is the hash of the message in the
buffer, and a defined result read shows its digest and hex string. -/
def Obligations.EveryStepKeepsTheHashInvariant : Prop :=
  ∀ s t : State, s.Inv → s.HashInv → step s = .next t → t.HashInv

/-- The host's sequence of R263: CLEAR, a PUSH for each byte, HASH, and then the engine alone; the result is the hash of
the bytes pushed (R18, R194). -/
def Obligations.HostSequenceComputesTheHash : Prop :=
  ∀ (s : State) (bytes : List Byte), s.Inv → s.phase ≠ .busy → bytes.length ≤ s.cfg.maxMsgBytes.toNat →
    s.turns = turnsOf (asmHashs bytes) →
    ∃ t : State,
      run
        (bytes.length + 2 + (2 + 66 * effectiveBlocks s.cfg.firstBlockOnly bytes)) s = .next t ∧
      t.phase = .done ∧ t.resValid = true ∧ t.message = bytes ∧
      t.acc = hashState s.cfg bytes ∧ t.digest = digestWords (hashState s.cfg bytes) ∧
      t.hexc = hashChars s.cfg bytes ∧
      t.errCmd = false ∧ t.errBusy = false ∧ t.errFull = false

/-- Whatever the host does meanwhile, short of a reset, a started hash reaches DONE with its result at its last micro-step:
the turns `before` and then one engine turn, with as many engine turns in all as R192 counts. -/
def Obligations.EveryInterleavingComputesTheHash : Prop :=
  ∀ (s : State) (before rest : List Turn), s.Inv → s.phase = .busy → s.seq = .pad →
    s.turns = before ++ .engine :: rest → .reset ∉ before →
    before.count .engine + 1 = 2 + 66 * effectiveBlocks s.cfg.firstBlockOnly s.message →
    ∃ t : State, run (before.length + 1) s = .next t ∧
      t.turns = rest ∧ t.phase = .done ∧ t.message = s.message ∧
      t.acc = stateAfter s.cfg.kTable s.message (effectiveBlocks s.cfg.firstBlockOnly s.message) ∧
      t.digest = digestWords t.acc ∧ t.hexc = hexChars t.digest ∧ t.hexc = hashChars s.cfg s.message

/-- R197: the result of a HASH depends on the message and the parameters K_TABLE and FIRST_BLOCK_ONLY only. -/
def Obligations.NoHiddenStateBetweenHashes : Prop :=
  ∀ s t : State, s.Inv → t.Inv → s.phase = .busy → t.phase = .busy → s.seq = .pad → t.seq = .pad →
    s.turns = [] → t.turns = [] → s.message = t.message → s.cfg.kTable = t.cfg.kTable →
    s.cfg.firstBlockOnly = t.cfg.firstBlockOnly →
    ∃ (n : Nat) (u v : State), run n s = .next u ∧
      run n t = .next v ∧ u.phase = .done ∧ v.phase = .done ∧
      u.acc = v.acc ∧ u.digest = v.digest ∧ u.hexc = v.hexc

/-- The items R261 calls unspecified are never observable: two machines that have just left reset and differ only in them,
and in CYCLES_PER_STEP, show the host the same values for ever, under every interleaving. -/
def Obligations.UnspecifiedResetValuesAreNeverObserved : Prop :=
  ∀ s t : State, bothJustReset s t →
    ∀ n : Nat, ∃ u v : State, run n s = .next u ∧
      run n t = .next v ∧ u.reads = v.reads ∧ u.status = v.status

/-! ## The host assembly -/

/-- R79: the words `HASHS` writes, the reads of `RDHEX` and `RDSTATE`, and `WAITDONE` wherever it stands in a program:
it reads STATUS and masks it, goes on past itself when the read does not show PHASE = 1, and else comes back to its start. -/
def Obligations.PseudoInstructionExpansions : Prop :=
  (∀ bytes : List Byte, turnsOf (asmHashs bytes) =
    Turn.command 0x01000000 :: (bytes.map fun b => Turn.command (0x02000000 + b.setWidth 32)) ++ [Turn.command 0x03000000]) ∧
  (∀ v, turnsOf (asmRdHex v) = ([12, 13, 14, 15, 16, 17, 18, 19].map fun n : RegNum => .host (.read n))) ∧
  (∀ v, turnsOf (asmRdState v) = ([4, 5, 6, 7].map fun n : RegNum => .host (.read n))) ∧
  (∀ (n : RegNum), n.toNat < 20 → (HostReg.ofNum n).toNum = n) ∧
  (∀ (sys : HostedSystem) (v : HostVar) (w : Nat), sys.host.holdsAt w (asmWaitDone v w) →
    ∃ sys' : HostedSystem, HostedSystem.run [.host, .host, .host] sys = .next sys' ∧
      sys'.host.code = sys.host.code ∧
      sys'.host.get v = sys.block.status &&& 3 ∧ (∀ u, u ≠ v → sys'.host.get u = sys.host.get u) ∧
      sys'.block = { sys.block with reads := ⟨1, sys.block.status⟩ :: sys.block.reads } ∧
      (sys.block.phase ≠ .busy → sys'.host.pc = w + 4) ∧
      (sys.block.phase = .busy → sys'.host.pc = w + 3 ∧
        HostedSystem.run [.host] sys' = .next { sys' with host := sys'.host.goto w }))

/-- R79 and R217: what `RDHEX` and `RDSTATE` leave in the host's variables, wherever they stand in a program, and that they
change nothing of the block but the host's record and the count of draws.
Of statements that name one variable the last one leaves its value. Where R219 leaves the reads unspecified each variable
holds a draw of its own, in the form of log 7. -/
def Obligations.RdHexAndRdStateReadTheResult : Prop :=
  (∀ (sys : HostedSystem) (v : Fin 8 → HostVar) (w : Nat), sys.host.holdsAt w (asmRdHex v) →
    ∃ sys' : HostedSystem, HostedSystem.run (List.replicate 8 .host) sys = .next sys' ∧
      sys'.host.pc = w + 8 ∧ sys'.host.code = sys.host.code ∧
      sys'.block = { sys.block with reads := sys'.block.reads, draws := sys'.block.draws } ∧
      (∀ u, (∀ n, v n ≠ u) → sys'.host.get u = sys.host.get u) ∧
      (∀ n, (∀ m, n < m → v m ≠ v n) → sys'.host.get (v n) =
        if sys.block.phase ≠ .busy ∧ sys.block.resValid = true then hexWord sys.block.hexc n
        else Config.unspecified (sys.block.draws + n.val))) ∧
  (∀ (sys : HostedSystem) (v : Fin 4 → HostVar) (w : Nat), sys.host.holdsAt w (asmRdState v) →
    ∃ sys' : HostedSystem, HostedSystem.run (List.replicate 4 .host) sys = .next sys' ∧
      sys'.host.pc = w + 4 ∧ sys'.host.code = sys.host.code ∧
      sys'.block = { sys.block with reads := sys'.block.reads, draws := sys'.block.draws } ∧
      (∀ u, (∀ n, v n ≠ u) → sys'.host.get u = sys.host.get u) ∧
      (∀ n, (∀ m, n < m → v m ≠ v n) → sys'.host.get (v n) =
        if sys.block.phase ≠ .busy ∧ sys.block.resValid = true then
          [sys.block.acc.a, sys.block.acc.b, sys.block.acc.c, sys.block.acc.d][n]
        else Config.unspecified (sys.block.draws + n.val)))
end

