-- ==== Sys2Proof/Laws/Bytes.lean ====
section
/-! SUPPORT. The bit-level operations by arithmetic, and where each byte of a padded message comes from. -/

namespace Sys2Proof.Machine

theorem byteOf_toNat (x : Word) (t : Nat) : (byteOf x t).toNat = x.toNat / 2 ^ (8 * t) % 256 := by
  simp [byteOf, BitVec.extractLsb'_toNat, Nat.shiftRight_eq_div_pow]

theorem le32_toNat (b0 b1 b2 b3 : Byte) :
    (le32 b0 b1 b2 b3).toNat = b0.toNat + 2 ^ 8 * b1.toNat + 2 ^ 16 * b2.toNat + 2 ^ 24 * b3.toNat := by
  have h0 := b0.isLt
  have h1 := b1.isLt
  have h2 := b2.isLt
  have h3 := b3.isLt
  rw [le32, BitVec.toNat_ofNat, Nat.mod_eq_of_lt]
  omega

theorem le32Bytes_le32 (b0 b1 b2 b3 : Byte) : le32Bytes (le32 b0 b1 b2 b3) = [b0, b1, b2, b3] := by
  have h0 := b0.isLt
  have h1 := b1.isLt
  have h2 := b2.isLt
  have h3 := b3.isLt
  simp only [le32Bytes, List.cons.injEq, and_true]
  refine ⟨?_, ?_, ?_, ?_⟩ <;>
  · apply BitVec.eq_of_toNat_eq
    rw [byteOf_toNat, le32_toNat]
    omega

theorem bswap32_toNat (x : Word) :
    (bswap32 x).toNat = x.toNat / 2 ^ 24 % 256 + 2 ^ 8 * (x.toNat / 2 ^ 16 % 256)
      + 2 ^ 16 * (x.toNat / 2 ^ 8 % 256) + 2 ^ 24 * (x.toNat % 256) := by
  simp [bswap32, le32_toNat, byteOf_toNat]

theorem hexDigit_toNat (n : BitVec 4) :
    (hexDigit n).toNat = if n.toNat ≤ 9 then 0x30 + n.toNat else 0x61 + (n.toNat - 10) := by
  have := n.isLt
  unfold hexDigit
  split
  · rw [BitVec.toNat_ofNat]; omega
  · rw [BitVec.toNat_ofNat]; omega

theorem le64Bytes_length (v : DWord) : (le64Bytes v).length = 8 := rfl

theorem le64Bytes_getElem? (v : DWord) (k : Nat) (h : k < 8) :
    (le64Bytes v)[k]? = some (v.extractLsb' (8 * k) 8) := by
  simp [le64Bytes, h]

/-- `Z` is the number of 0x00 bytes that bring the length to 56 mod 64 (R102). -/
theorem zeroCount_spec (len : Nat) : (len + 1 + zeroCount len) % 64 = 56 ∧ zeroCount len < 64 := by
  unfold zeroCount
  omega

theorem padWith_length (m : List Byte) (v : DWord) :
    (padWith m v).length = m.length + 1 + zeroCount m.length + 8 := by
  simp only [padWith, zeros, List.length_append, List.length_replicate, le64Bytes_length, List.length_singleton]

/-- Every byte of a padded message (R102 "in words"). -/
theorem padWith_getElem? (m : List Byte) (v : DWord) (q : Nat) :
    (padWith m v)[q]? =
      if q < m.length then m[q]?
      else if q = m.length then some 0x80
      else if q < m.length + 1 + zeroCount m.length then some 0
      else (le64Bytes v)[q - (m.length + 1 + zeroCount m.length)]? := by
  unfold padWith zeros
  by_cases h1 : q < m.length
  · rw [if_pos h1, List.append_assoc, List.append_assoc, List.getElem?_append_left h1]
  · rw [if_neg h1]
    by_cases h2 : q = m.length
    · subst h2
      simp
    · rw [if_neg h2]
      by_cases h3 : q < m.length + 1 + zeroCount m.length
      · rw [if_pos h3, List.getElem?_append_left (by simp; omega), List.getElem?_append_right (by simp; omega),
          List.getElem?_replicate, if_pos (by simp; omega)]
      · rw [if_neg h3, List.getElem?_append_right (by simp; omega)]
        simp only [List.length_append, List.length_replicate, List.length_singleton]

end Sys2Proof.Machine
end

