-- ==== Sys2Proof/Laws/State.lean ====
section
/-! SUPPORT. One lemma for each field and each named update of State, so that no later proof unfolds a record update. -/

namespace Sys2Proof.Machine

variable (s : State)

@[simp] theorem State.raise_cmd_cfg : (s.raise .cmd).cfg = s.cfg := rfl
@[simp] theorem State.raise_cmd_msg : (s.raise .cmd).msg = s.msg := rfl
@[simp] theorem State.raise_cmd_msgLen : (s.raise .cmd).msgLen = s.msgLen := rfl
@[simp] theorem State.raise_cmd_lenBits : (s.raise .cmd).lenBits = s.lenBits := rfl
@[simp] theorem State.raise_cmd_pad : (s.raise .cmd).pad = s.pad := rfl
@[simp] theorem State.raise_cmd_nb : (s.raise .cmd).nb = s.nb := rfl
@[simp] theorem State.raise_cmd_acc : (s.raise .cmd).acc = s.acc := rfl
@[simp] theorem State.raise_cmd_work : (s.raise .cmd).work = s.work := rfl
@[simp] theorem State.raise_cmd_x : (s.raise .cmd).x = s.x := rfl
@[simp] theorem State.raise_cmd_phase : (s.raise .cmd).phase = s.phase := rfl
@[simp] theorem State.raise_cmd_seq : (s.raise .cmd).seq = s.seq := rfl
@[simp] theorem State.raise_cmd_j : (s.raise .cmd).j = s.j := rfl
@[simp] theorem State.raise_cmd_i : (s.raise .cmd).i = s.i := rfl
@[simp] theorem State.raise_cmd_digest : (s.raise .cmd).digest = s.digest := rfl
@[simp] theorem State.raise_cmd_hexc : (s.raise .cmd).hexc = s.hexc := rfl
@[simp] theorem State.raise_cmd_errCmd : (s.raise .cmd).errCmd = true := rfl
@[simp] theorem State.raise_cmd_errBusy : (s.raise .cmd).errBusy = s.errBusy := rfl
@[simp] theorem State.raise_cmd_errFull : (s.raise .cmd).errFull = s.errFull := rfl
@[simp] theorem State.raise_cmd_resValid : (s.raise .cmd).resValid = s.resValid := rfl
@[simp] theorem State.raise_cmd_turns : (s.raise .cmd).turns = s.turns := rfl
@[simp] theorem State.raise_cmd_reads : (s.raise .cmd).reads = s.reads := rfl
@[simp] theorem State.raise_cmd_draws : (s.raise .cmd).draws = s.draws := rfl

@[simp] theorem State.raise_busy_cfg : (s.raise .busy).cfg = s.cfg := rfl
@[simp] theorem State.raise_busy_msg : (s.raise .busy).msg = s.msg := rfl
@[simp] theorem State.raise_busy_msgLen : (s.raise .busy).msgLen = s.msgLen := rfl
@[simp] theorem State.raise_busy_lenBits : (s.raise .busy).lenBits = s.lenBits := rfl
@[simp] theorem State.raise_busy_pad : (s.raise .busy).pad = s.pad := rfl
@[simp] theorem State.raise_busy_nb : (s.raise .busy).nb = s.nb := rfl
@[simp] theorem State.raise_busy_acc : (s.raise .busy).acc = s.acc := rfl
@[simp] theorem State.raise_busy_work : (s.raise .busy).work = s.work := rfl
@[simp] theorem State.raise_busy_x : (s.raise .busy).x = s.x := rfl
@[simp] theorem State.raise_busy_phase : (s.raise .busy).phase = s.phase := rfl
@[simp] theorem State.raise_busy_seq : (s.raise .busy).seq = s.seq := rfl
@[simp] theorem State.raise_busy_j : (s.raise .busy).j = s.j := rfl
@[simp] theorem State.raise_busy_i : (s.raise .busy).i = s.i := rfl
@[simp] theorem State.raise_busy_digest : (s.raise .busy).digest = s.digest := rfl
@[simp] theorem State.raise_busy_hexc : (s.raise .busy).hexc = s.hexc := rfl
@[simp] theorem State.raise_busy_errCmd : (s.raise .busy).errCmd = s.errCmd := rfl
@[simp] theorem State.raise_busy_errBusy : (s.raise .busy).errBusy = true := rfl
@[simp] theorem State.raise_busy_errFull : (s.raise .busy).errFull = s.errFull := rfl
@[simp] theorem State.raise_busy_resValid : (s.raise .busy).resValid = s.resValid := rfl
@[simp] theorem State.raise_busy_turns : (s.raise .busy).turns = s.turns := rfl
@[simp] theorem State.raise_busy_reads : (s.raise .busy).reads = s.reads := rfl
@[simp] theorem State.raise_busy_draws : (s.raise .busy).draws = s.draws := rfl

@[simp] theorem State.raise_full_cfg : (s.raise .full).cfg = s.cfg := rfl
@[simp] theorem State.raise_full_msg : (s.raise .full).msg = s.msg := rfl
@[simp] theorem State.raise_full_msgLen : (s.raise .full).msgLen = s.msgLen := rfl
@[simp] theorem State.raise_full_lenBits : (s.raise .full).lenBits = s.lenBits := rfl
@[simp] theorem State.raise_full_pad : (s.raise .full).pad = s.pad := rfl
@[simp] theorem State.raise_full_nb : (s.raise .full).nb = s.nb := rfl
@[simp] theorem State.raise_full_acc : (s.raise .full).acc = s.acc := rfl
@[simp] theorem State.raise_full_work : (s.raise .full).work = s.work := rfl
@[simp] theorem State.raise_full_x : (s.raise .full).x = s.x := rfl
@[simp] theorem State.raise_full_phase : (s.raise .full).phase = s.phase := rfl
@[simp] theorem State.raise_full_seq : (s.raise .full).seq = s.seq := rfl
@[simp] theorem State.raise_full_j : (s.raise .full).j = s.j := rfl
@[simp] theorem State.raise_full_i : (s.raise .full).i = s.i := rfl
@[simp] theorem State.raise_full_digest : (s.raise .full).digest = s.digest := rfl
@[simp] theorem State.raise_full_hexc : (s.raise .full).hexc = s.hexc := rfl
@[simp] theorem State.raise_full_errCmd : (s.raise .full).errCmd = s.errCmd := rfl
@[simp] theorem State.raise_full_errBusy : (s.raise .full).errBusy = s.errBusy := rfl
@[simp] theorem State.raise_full_errFull : (s.raise .full).errFull = true := rfl
@[simp] theorem State.raise_full_resValid : (s.raise .full).resValid = s.resValid := rfl
@[simp] theorem State.raise_full_turns : (s.raise .full).turns = s.turns := rfl
@[simp] theorem State.raise_full_reads : (s.raise .full).reads = s.reads := rfl
@[simp] theorem State.raise_full_draws : (s.raise .full).draws = s.draws := rfl

@[simp] theorem State.clearErrors_cfg : s.clearErrors.cfg = s.cfg := rfl
@[simp] theorem State.clearErrors_msg : s.clearErrors.msg = s.msg := rfl
@[simp] theorem State.clearErrors_msgLen : s.clearErrors.msgLen = s.msgLen := rfl
@[simp] theorem State.clearErrors_lenBits : s.clearErrors.lenBits = s.lenBits := rfl
@[simp] theorem State.clearErrors_pad : s.clearErrors.pad = s.pad := rfl
@[simp] theorem State.clearErrors_nb : s.clearErrors.nb = s.nb := rfl
@[simp] theorem State.clearErrors_acc : s.clearErrors.acc = s.acc := rfl
@[simp] theorem State.clearErrors_work : s.clearErrors.work = s.work := rfl
@[simp] theorem State.clearErrors_x : s.clearErrors.x = s.x := rfl
@[simp] theorem State.clearErrors_phase : s.clearErrors.phase = s.phase := rfl
@[simp] theorem State.clearErrors_seq : s.clearErrors.seq = s.seq := rfl
@[simp] theorem State.clearErrors_j : s.clearErrors.j = s.j := rfl
@[simp] theorem State.clearErrors_i : s.clearErrors.i = s.i := rfl
@[simp] theorem State.clearErrors_digest : s.clearErrors.digest = s.digest := rfl
@[simp] theorem State.clearErrors_hexc : s.clearErrors.hexc = s.hexc := rfl
@[simp] theorem State.clearErrors_errCmd : s.clearErrors.errCmd = false := rfl
@[simp] theorem State.clearErrors_errBusy : s.clearErrors.errBusy = false := rfl
@[simp] theorem State.clearErrors_errFull : s.clearErrors.errFull = false := rfl
@[simp] theorem State.clearErrors_resValid : s.clearErrors.resValid = s.resValid := rfl
@[simp] theorem State.clearErrors_turns : s.clearErrors.turns = s.turns := rfl
@[simp] theorem State.clearErrors_reads : s.clearErrors.reads = s.reads := rfl
@[simp] theorem State.clearErrors_draws : s.clearErrors.draws = s.draws := rfl

@[simp] theorem State.resetBlock_cfg : s.resetBlock.cfg = s.cfg := rfl
@[simp] theorem State.resetBlock_msg : s.resetBlock.msg = State.reset.msg := rfl
@[simp] theorem State.resetBlock_msgLen : s.resetBlock.msgLen = State.reset.msgLen := rfl
@[simp] theorem State.resetBlock_lenBits : s.resetBlock.lenBits = State.reset.lenBits := rfl
@[simp] theorem State.resetBlock_pad : s.resetBlock.pad = State.reset.pad := rfl
@[simp] theorem State.resetBlock_nb : s.resetBlock.nb = State.reset.nb := rfl
@[simp] theorem State.resetBlock_acc : s.resetBlock.acc = State.reset.acc := rfl
@[simp] theorem State.resetBlock_work : s.resetBlock.work = State.reset.work := rfl
@[simp] theorem State.resetBlock_x : s.resetBlock.x = State.reset.x := rfl
@[simp] theorem State.resetBlock_phase : s.resetBlock.phase = State.reset.phase := rfl
@[simp] theorem State.resetBlock_seq : s.resetBlock.seq = State.reset.seq := rfl
@[simp] theorem State.resetBlock_j : s.resetBlock.j = State.reset.j := rfl
@[simp] theorem State.resetBlock_i : s.resetBlock.i = State.reset.i := rfl
@[simp] theorem State.resetBlock_digest : s.resetBlock.digest = State.reset.digest := rfl
@[simp] theorem State.resetBlock_hexc : s.resetBlock.hexc = State.reset.hexc := rfl
@[simp] theorem State.resetBlock_errCmd : s.resetBlock.errCmd = State.reset.errCmd := rfl
@[simp] theorem State.resetBlock_errBusy : s.resetBlock.errBusy = State.reset.errBusy := rfl
@[simp] theorem State.resetBlock_errFull : s.resetBlock.errFull = State.reset.errFull := rfl
@[simp] theorem State.resetBlock_resValid : s.resetBlock.resValid = State.reset.resValid := rfl
@[simp] theorem State.resetBlock_turns : s.resetBlock.turns = s.turns := rfl
@[simp] theorem State.resetBlock_reads : s.resetBlock.reads = s.reads := rfl
@[simp] theorem State.resetBlock_draws : s.resetBlock.draws = s.draws := rfl

@[simp] theorem State.reset_msgLen : State.reset.msgLen = 0 := rfl
@[simp] theorem State.reset_phase : State.reset.phase = .idle := rfl
@[simp] theorem State.reset_seq : State.reset.seq = .pad := rfl
@[simp] theorem State.reset_j : State.reset.j = 0 := rfl
@[simp] theorem State.reset_i : State.reset.i = 0 := rfl
@[simp] theorem State.reset_nb : State.reset.nb = 1 := rfl
@[simp] theorem State.reset_msg : State.reset.msg = [] := rfl
@[simp] theorem State.reset_pad : State.reset.pad = [] := rfl
@[simp] theorem State.reset_errCmd : State.reset.errCmd = false := rfl
@[simp] theorem State.reset_errBusy : State.reset.errBusy = false := rfl
@[simp] theorem State.reset_errFull : State.reset.errFull = false := rfl
@[simp] theorem State.reset_resValid : State.reset.resValid = false := rfl
@[simp] theorem State.reset_turns : State.reset.turns = [] := rfl
@[simp] theorem State.reset_reads : State.reset.reads = [] := rfl
@[simp] theorem State.reset_draws : State.reset.draws = 0 := rfl

end Sys2Proof.Machine
end

