-- ==== Sys2Proof/Laws/Effects.lean ====
section
/-! SUPPORT. What one step can do, said once: the effects of a command, of the engine and of a turn, and the inversion of
`exec`, `engineTurn`, `takeTurn` and `step` into them. -/

namespace Sys2Proof.Machine

/-- Every next state a command can answer (R211). -/
inductive CommandEffect (s : State) : Instr → State → Prop where
  | nop : CommandEffect s .nop s
  | clear (h : s.phase ≠ .busy) : CommandEffect s .clear { s.clearErrors with msgLen := 0, phase := .idle }
  | push (data : Byte) (h : s.phase ≠ .busy) (hm : s.msgLen ≠ s.cfg.maxMsgBytes)
      (hl : s.msgLen.toNat < s.cfg.maxMsgBytes.toNat) :
      CommandEffect s (.push data)
        { s with msg := s.msg.write s.msgLen.toNat data, msgLen := s.msgLen + 1, phase := .idle }
  | full (data : Byte) (h : s.phase ≠ .busy) (hm : s.msgLen = s.cfg.maxMsgBytes) :
      CommandEffect s (.push data) (s.raise .full)
  | hash (h : s.phase ≠ .busy) : CommandEffect s .hash { s with phase := .busy, seq := .pad }
  | busyClear (h : s.phase = .busy) : CommandEffect s .clear (s.raise .busy)
  | busyPush (data : Byte) (h : s.phase = .busy) : CommandEffect s (.push data) (s.raise .busy)
  | busyHash (h : s.phase = .busy) : CommandEffect s .hash (s.raise .busy)
  | reserved (opc : Byte) : CommandEffect s (.reserved opc) (s.raise .cmd)

/-- Every next state an engine turn can answer (R185 to R190). -/
inductive EngineEffect (s : State) : State → Prop where
  | rest (h : s.phase ≠ .busy) : EngineEffect s s
  | pad (h : s.phase = .busy) (hs : s.seq = .pad) (hl : s.msgLen.toNat ≤ s.cfg.maxMsgBytes.toNat) :
      EngineEffect s { s with
        lenBits := bitLength s.msgLen.toNat
        pad := s.pad.writeBytes 0 (padWith s.message (bitLength s.msgLen.toNat))
        nb := blockCount (padWith s.message (bitLength s.msgLen.toNat))
        acc := iv
        j := 0
        seq := .load }
  | load (h : s.phase = .busy) (hs : s.seq = .load) (hj : 64 * s.j + 64 ≤ s.padSize) :
      EngineEffect s { s with x := blockWords s.pad.read s.j, work := s.acc, i := 0, seq := .round }
  | round (h : s.phase = .busy) (hs : s.seq = .round) (hi : s.i ≠ 63) :
      EngineEffect s { s with work := roundStep s.cfg.kTable s.x s.i s.work, i := s.i + 1 }
  | lastRound (h : s.phase = .busy) (hs : s.seq = .round) (hi : s.i = 63) :
      EngineEffect s { s with work := roundStep s.cfg.kTable s.x s.i s.work, seq := .fold }
  | fold (h : s.phase = .busy) (hs : s.seq = .fold) (hf : s.cfg.firstBlockOnly = false) (hj : s.j + 1 ≠ s.nb) :
      EngineEffect s { s with acc := addQuad s.acc s.work, j := s.j + 1, seq := .load }
  | lastFold (h : s.phase = .busy) (hs : s.seq = .fold) (hj : s.cfg.firstBlockOnly = true ∨ s.j + 1 = s.nb) :
      EngineEffect s { s with acc := addQuad s.acc s.work, seq := .format }
  | format (h : s.phase = .busy) (hs : s.seq = .format) :
      EngineEffect s { s with
        digest := digestWords s.acc
        hexc := hexChars (digestWords s.acc)
        resValid := true
        phase := .done }

/-- Every next state a turn can answer (R61, R210, R260). -/
inductive TurnEffect (s : State) : Turn → State → Prop where
  | engine {t : State} (h : EngineEffect s t) : TurnEffect s .engine t
  | command (w : Word) {t : State} (h : CommandEffect s (decode w) t) : TurnEffect s (.host (.write 0 w)) t
  | ignored (n : RegNum) (w : Word) (hn : n ≠ 0) : TurnEffect s (.host (.write n w)) s
  | defined (n : RegNum) (hd : (HostReg.ofNum n).isResult = true → s.resultDefined = true) :
      TurnEffect s (.host (.read n)) { s with reads := ⟨n, s.regValue (HostReg.ofNum n)⟩ :: s.reads }
  | draw (n : RegNum) (hr : (HostReg.ofNum n).isResult = true) (hd : s.resultDefined = false) :
      TurnEffect s (.host (.read n))
        { s with reads := ⟨n, Config.unspecified s.draws⟩ :: s.reads, draws := s.draws + 1 }
  | reset : TurnEffect s .reset s.resetBlock

theorem exec_effect {i : Instr} {s t : State} (h : exec i s = .next t) : CommandEffect s i t := by
  cases i with
  | nop =>
    cases h
    exact .nop
  | clear =>
    simp only [exec, execClear, unlessBusy] at h
    split at h <;> cases h
    · exact .busyClear ‹_›
    · exact .clear ‹_›
  | push data =>
    simp only [exec, execPush, unlessBusy, State.appendByte] at h
    split at h
    · cases h
      exact .busyPush data ‹_›
    · split at h
      · cases h
        exact .full data ‹_› ‹_›
      · split at h <;> cases h
        exact .push data ‹_› ‹_› ‹_›
  | hash =>
    simp only [exec, execHash, unlessBusy] at h
    split at h <;> cases h
    · exact .busyHash ‹_›
    · exact .hash ‹_›
  | reserved opc =>
    cases h
    exact .reserved opc

theorem engineTurn_effect {s t : State} (h : engineTurn s = .next t) : EngineEffect s t := by
  unfold engineTurn at h
  split at h
  · rename_i hb
    unfold microStep at h
    split at h
    · simp only [stepPad] at h
      split at h <;> cases h
      exact .pad hb ‹_› ‹_›
    · simp only [stepLoad] at h
      split at h <;> cases h
      exact .load hb ‹_› ‹_›
    · simp only [stepRound] at h
      split at h <;> cases h
      · exact .lastRound hb ‹_› ‹_›
      · exact .round hb ‹_› ‹_›
    · simp only [stepFold] at h
      split at h <;> cases h
      · exact .lastFold hb ‹_› ‹_›
      · rename_i hs hj
        have hj := not_or.mp hj
        exact .fold hb hs (by simpa using hj.1) hj.2
    · cases h
      exact .format hb ‹_›
  · cases h
    exact .rest ‹_›

theorem HostReg.ofNum_eq_cmd {n : RegNum} : HostReg.ofNum n = .cmd ↔ n = 0 := by
  constructor
  · intro h
    unfold HostReg.ofNum at h
    split at h
    · exact BitVec.eq_of_toNat_eq (by simpa using ‹_›)
    · repeat' split at h
      all_goals cases h
  · rintro rfl
    rfl

theorem takeTurn_effect {turn : Turn} {s t : State} (h : takeTurn turn s = .next t) : TurnEffect s turn t := by
  cases turn with
  | engine => exact .engine (engineTurn_effect h)
  | reset =>
    cases h
    exact .reset
  | host access =>
    cases access with
    | read n =>
      simp only [takeTurn, hostAccess, hostRead] at h
      split at h <;> cases h
      · rename_i hd
        exact .draw n hd.1 (by simpa using hd.2)
      · rename_i hd
        exact .defined n fun hr => by
          by_contra hv
          exact hd ⟨hr, hv⟩
    | write n w =>
      simp only [takeTurn, hostAccess, hostWrite] at h
      split at h
      · rename_i hn
        obtain rfl := HostReg.ofNum_eq_cmd.mp hn
        exact .command w (exec_effect h)
      · rename_i hn
        cases h
        exact .ignored n w fun h0 => hn (HostReg.ofNum_eq_cmd.mpr h0)

/-- A step is the next turn, in the state with that turn taken off. -/
theorem step_eq (s : State) : step s = takeTurn s.nextTurn { s with turns := s.turns.tail } := by
  obtain ⟨⟩ := s
  rename_i turns _ _
  cases turns <;> rfl

theorem step_effect {s t : State} (h : step s = .next t) :
    TurnEffect { s with turns := s.turns.tail } s.nextTurn t :=
  takeTurn_effect (step_eq s ▸ h)

end Sys2Proof.Machine
end

