-- ==== Sys2Proof/Laws/Encoding.lean ====
section
/-! SUPPORT. The fields of a command word built from its parts, and what the decoder reads by operation code. -/

namespace Sys2Proof

theorem extract_high (a : BitVec 8) (b : BitVec 16) (c : BitVec 8) :
    (a ++ b ++ c : BitVec (8 + 16 + 8)).extractLsb' 24 8 = a := by
  ext i hi
  rw [BitVec.getElem_extractLsb', BitVec.getLsbD_append, BitVec.getLsbD_append, if_neg (by omega),
    if_neg (by omega), show 24 + i - 8 - 16 = i by omega, BitVec.getLsbD_eq_getElem hi]

theorem extract_middle (a : BitVec 8) (b : BitVec 16) (c : BitVec 8) :
    (a ++ b ++ c : BitVec (8 + 16 + 8)).extractLsb' 8 16 = b := by
  ext i hi
  rw [BitVec.getElem_extractLsb', BitVec.getLsbD_append, BitVec.getLsbD_append, if_neg (by omega),
    if_pos (by omega), show 8 + i - 8 = i by omega, BitVec.getLsbD_eq_getElem hi]

theorem extract_low (a : BitVec 8) (b : BitVec 16) (c : BitVec 8) :
    (a ++ b ++ c : BitVec (8 + 16 + 8)).extractLsb' 0 8 = c := by
  ext i hi
  rw [BitVec.getElem_extractLsb', BitVec.getLsbD_append, if_pos (by omega), Nat.zero_add,
    BitVec.getLsbD_eq_getElem hi]

theorem commandWord_opc (opc data : Byte) : opcOf (commandWord opc data) = opc := extract_high opc 0 data

theorem commandWord_rsv (opc data : Byte) : (commandWord opc data).extractLsb' 8 16 = 0 :=
  extract_middle opc 0 data

theorem commandWord_data (opc data : Byte) : dataOf (commandWord opc data) = data := extract_low opc 0 data

theorem decode_eq_nop {w : Word} (h : (opcOf w).toNat = 0) : decode w = .nop := by
  simp only [decode, h]

theorem decode_eq_clear {w : Word} (h : (opcOf w).toNat = 1) : decode w = .clear := by
  simp only [decode, h]

theorem decode_eq_push {w : Word} (h : (opcOf w).toNat = 2) : decode w = .push (dataOf w) := by
  simp only [decode, h]

theorem decode_eq_hash {w : Word} (h : (opcOf w).toNat = 3) : decode w = .hash := by
  simp only [decode, h]

theorem decode_eq_reserved {w : Word} (h : 4 ≤ (opcOf w).toNat) : decode w = .reserved (opcOf w) := by
  unfold decode
  split <;> first | rfl | omega

/-- The operation code of a word, from the command it decodes to. -/
theorem opcOf_of_decode (w : Word) :
    (decode w = .nop → (opcOf w).toNat = 0) ∧ (decode w = .clear → (opcOf w).toNat = 1) ∧
    (∀ data, decode w = .push data → (opcOf w).toNat = 2 ∧ data = dataOf w) ∧
    (decode w = .hash → (opcOf w).toNat = 3) ∧
    (∀ opc, decode w = .reserved opc → 4 ≤ (opcOf w).toNat ∧ opc = opcOf w) := by
  by_cases h0 : (opcOf w).toNat = 0
  · simp [decode_eq_nop h0, h0]
  by_cases h1 : (opcOf w).toNat = 1
  · simp [decode_eq_clear h1, h1]
  by_cases h2 : (opcOf w).toNat = 2
  · simp [decode_eq_push h2, h2, eq_comm]
  by_cases h3 : (opcOf w).toNat = 3
  · simp [decode_eq_hash h3, h3]
  have h4 : 4 ≤ (opcOf w).toNat := by omega
  simp [decode_eq_reserved h4, h4, eq_comm]

end Sys2Proof
end

