-- ==== Sys2Proof/Laws/HostAsm.lean ====
section
/-! SUPPORT. The host assembly, said once: the fields of a host program after each update, the value of a read, and what
each statement does where the host stands at it. -/

namespace Sys2Proof.Machine

section Host

variable (p : HostProgram)

@[simp] theorem HostProgram.goto_code (label : Nat) : (p.goto label).code = p.code := rfl
@[simp] theorem HostProgram.goto_pc (label : Nat) : (p.goto label).pc = label := rfl
@[simp] theorem HostProgram.goto_get (label : Nat) (u : HostVar) : (p.goto label).get u = p.get u := rfl
@[simp] theorem HostProgram.set_code (v : HostVar) (w : Word) : (p.set v w).code = p.code := rfl
@[simp] theorem HostProgram.set_pc (v : HostVar) (w : Word) : (p.set v w).pc = p.pc := rfl

theorem HostProgram.get_set (v u : HostVar) (w : Word) : (p.set v w).get u = if u = v then w else p.get u := by
  by_cases h : u = v
  · simp [get, set, h]
  · have hb : (u == v) = false := by simpa using h
    simp [get, set, List.lookup_cons, hb, h]

end Host

/-- The value a read of register n gives the host (R217, R219). -/
def State.shown (n : RegNum) (s : State) : Word :=
  if (HostReg.ofNum n).isResult ∧ ¬s.resultDefined then Config.unspecified s.draws
  else s.regValue (HostReg.ofNum n)

/-- The block after a read of register n: the record and the count of draws, nothing else. -/
def State.afterRead (n : RegNum) (s : State) : State :=
  { s with
    reads := ⟨n, s.shown n⟩ :: s.reads
    draws := if (HostReg.ofNum n).isResult ∧ ¬s.resultDefined then s.draws + 1 else s.draws }

theorem takeTurn_read (n : RegNum) (s : State) : takeTurn (.host (.read n)) s = .next (s.afterRead n) := by
  simp only [takeTurn, hostAccess, hostRead, State.afterRead, State.shown]
  split <;> rfl

theorem HostedSystem.run_cons {who : Agent} {sys sys' : HostedSystem} (h : sys.step who = .next sys')
    (rest : List Agent) : HostedSystem.run (who :: rest) sys = HostedSystem.run rest sys' := by
  rw [HostedSystem.run, h]

section Statement

variable {sys : HostedSystem}

theorem HostedSystem.step_rd {v : HostVar} {reg : RegNum} (h : sys.host.code[sys.host.pc]? = some (.rd v reg)) :
    sys.step .host = .next
      { host := (sys.host.goto (sys.host.pc + 1)).set v (sys.block.shown reg), block := sys.block.afterRead reg } := by
  simp only [HostedSystem.step, hostStep, h, perform, takeTurn_read]
  rfl

theorem HostedSystem.step_and {vd vs : HostVar} {imm : Word}
    (h : sys.host.code[sys.host.pc]? = some (.and vd vs imm)) :
    sys.step .host = .next
      { sys with host := (sys.host.goto (sys.host.pc + 1)).set vd (sys.host.get vs &&& imm) } := by
  simp only [HostedSystem.step, hostStep, h]

theorem HostedSystem.step_bne {v : HostVar} {imm : Word} {label : Nat}
    (h : sys.host.code[sys.host.pc]? = some (.bne v imm label)) :
    sys.step .host = .next
      { sys with host := sys.host.goto (if sys.host.get v ≠ imm then label else sys.host.pc + 1) } := by
  simp only [HostedSystem.step, hostStep, h]
  split <;> rfl

theorem HostedSystem.step_b {label : Nat} (h : sys.host.code[sys.host.pc]? = some (.b label)) :
    sys.step .host = .next { sys with host := sys.host.goto label } := by
  simp only [HostedSystem.step, hostStep, h]

theorem HostedSystem.step_cmd {w : Word} (h : sys.host.code[sys.host.pc]? = some (.cmd w)) :
    sys.step .host =
      sys.perform (.host (.write 0 w)) fun _ => sys.host.goto (sys.host.pc + 1) := by
  simp only [HostedSystem.step, hostStep, h]

end Statement

end Sys2Proof.Machine
end

