-- ==== Sys2Proof/Laws/Memory.lean ====
section
/-! SUPPORT. The laws of the byte memories: a read after a write, and that every operation keeps the canonical form and
the address space. -/

namespace Sys2Proof.Machine

theorem Memory.wf_nil : Memory.wf [] := by simp [Memory.wf]

theorem Memory.within_nil (n : Nat) : Memory.within [] n := by simp

theorem Memory.wf_cons {k : Nat} {c : Byte} {m : Memory} :
    Memory.wf ((k, c) :: m) ↔ (∀ p ∈ m, k < p.1) ∧ c ≠ 0 ∧ Memory.wf m := by
  simp only [Memory.wf, List.pairwise_cons, List.mem_cons, forall_eq_or_imp]
  tauto

/-- An address below every listed one reads as 0x00. -/
theorem Memory.read_below {m : Memory} {a : Nat} (h : ∀ p ∈ m, a < p.1) : m.read a = 0 := by
  induction m with
  | nil => rfl
  | cons p m ih =>
    have hp := h p (by simp)
    simp only [Memory.read]
    rw [if_neg (by omega), ih (fun q hq => h q (by simp [hq]))]

/-- Where the entries of a written memory come from. -/
theorem Memory.mem_write {m : Memory} {a : Nat} {b : Byte} {p : Host.Cell} (h : p ∈ m.write a b) :
    p ∈ m ∨ (p = (a, b) ∧ b ≠ 0) := by
  induction m with
  | nil =>
    simp only [Memory.write] at h
    split at h
    · simp at h
    · simp_all
  | cons q m ih =>
    simp only [Memory.write] at h
    split at h
    · rcases List.mem_cons.mp h with h | h
      · simp [h]
      · rcases ih h with h | h
        · simp [h]
        · exact .inr h
    · split at h
      · split at h <;> simp_all
      · rcases List.mem_cons.mp h with h | h
        · simp_all
        · split at h <;> simp_all

theorem Memory.write_wf {m : Memory} (h : m.wf) (a : Nat) (b : Byte) : (m.write a b).wf := by
  induction m with
  | nil =>
    simp only [Memory.write]
    split <;> simp_all [Memory.wf]
  | cons p m ih =>
    obtain ⟨k, c⟩ := p
    obtain ⟨hlt, hc, hm⟩ := Memory.wf_cons.mp h
    simp only [Memory.write]
    split
    · refine Memory.wf_cons.mpr ⟨fun q hq => ?_, hc, ih hm⟩
      rcases Memory.mem_write hq with hq | ⟨rfl, -⟩
      · exact hlt q hq
      · assumption
    · split <;> split
      · exact hm
      · exact h
      · exact Memory.wf_cons.mpr ⟨fun q hq => by have := hlt q hq; omega, by assumption, hm⟩
      · refine Memory.wf_cons.mpr ⟨fun q hq => ?_, by assumption, h⟩
        rcases List.mem_cons.mp hq with rfl | hq
        · simp only; omega
        · have := hlt q hq; omega

theorem Memory.write_within {m : Memory} {n a : Nat} (h : m.within n) (b : Byte) (ha : a < n) :
    (m.write a b).within n := fun p hp => by
  rcases Memory.mem_write hp with hp | ⟨rfl, -⟩
  · exact h p hp
  · exact ha

/-- A read after a write: the written byte at its address, every other byte as before. -/
theorem Memory.read_write {m : Memory} (h : m.wf) (a : Nat) (b : Byte) (q : Nat) :
    (m.write a b).read q = if q = a then b else m.read q := by
  induction m with
  | nil =>
    simp only [Memory.write]
    by_cases hb : b = 0 <;> by_cases hq : q = a
    · rw [if_pos hb, if_pos hq, hb, Memory.read]
    · rw [if_pos hb, if_neg hq]
    · rw [if_neg hb, if_pos hq, Memory.read, if_pos hq.symm]
    · rw [if_neg hb, if_neg hq]
      exact if_neg (Ne.symm hq)
  | cons p m ih =>
    obtain ⟨k, c⟩ := p
    obtain ⟨hlt, hc, hm⟩ := Memory.wf_cons.mp h
    simp only [Memory.write]
    split
    · simp only [Memory.read, ih hm]
      split <;> split <;> simp_all
    · by_cases hk : k = a
      · subst hk
        by_cases hb : b = 0
        · rw [if_pos hb, if_pos rfl, hb]
          by_cases hq : q = k
          · rw [if_pos hq, hq]
            exact Memory.read_below hlt
          · rw [if_neg hq, Memory.read, if_neg (Ne.symm hq)]
        · simp only [hb, if_false, if_true, Memory.read]
          by_cases hq : q = k
          · rw [if_pos hq, if_pos hq.symm]
          · rw [if_neg hq, if_neg (Ne.symm hq), if_neg (Ne.symm hq)]
      · by_cases hb : b = 0
        · simp only [hk, hb, if_true, if_false]
          by_cases hq : q = a
          · rw [if_pos hq]
            subst hq
            exact Memory.read_below fun p hp => by
              rcases List.mem_cons.mp hp with rfl | hp
              · simp only; omega
              · have := hlt p hp; omega
          · rw [if_neg hq]
        · simp only [hk, hb, if_false]
          rw [Memory.read]
          by_cases hq : q = a
          · rw [if_pos hq, if_pos hq.symm]
          · rw [if_neg hq, if_neg (Ne.symm hq)]

theorem Memory.read_write_same {m : Memory} (h : m.wf) (a : Nat) (b : Byte) : (m.write a b).read a = b := by
  simp [Memory.read_write h]

theorem Memory.read_write_other {m : Memory} (h : m.wf) {a q : Nat} (b : Byte) (hq : q ≠ a) :
    (m.write a b).read q = m.read q := by
  simp [Memory.read_write h, hq]

theorem Memory.readBytes_length (m : Memory) (a n : Nat) : (m.readBytes a n).length = n := by
  induction n generalizing a with
  | zero => rfl
  | succ n ih => simp [Memory.readBytes, ih]

theorem Memory.readBytes_getElem? (m : Memory) (a n q : Nat) :
    (m.readBytes a n)[q]? = if q < n then some (m.read (a + q)) else none := by
  induction n generalizing a q with
  | zero => simp [Memory.readBytes]
  | succ n ih =>
    cases q with
    | zero => simp [Memory.readBytes]
    | succ q =>
      simp only [Memory.readBytes, List.getElem?_cons_succ, ih, Nat.add_lt_add_iff_right]
      rw [show a + 1 + q = a + (q + 1) by omega]

/-- Reading n bytes depends on those n bytes only. -/
theorem Memory.readBytes_congr {m m' : Memory} {a n : Nat} (h : ∀ q, q < n → m.read (a + q) = m'.read (a + q)) :
    m.readBytes a n = m'.readBytes a n := by
  refine List.ext_getElem? fun q => ?_
  rw [Memory.readBytes_getElem?, Memory.readBytes_getElem?]
  split
  · rw [h q (by assumption)]
  · rfl

theorem Memory.readBytes_succ (m : Memory) (a n : Nat) :
    m.readBytes a (n + 1) = m.readBytes a n ++ [m.read (a + n)] := by
  induction n generalizing a with
  | zero => rfl
  | succ n ih =>
    rw [Memory.readBytes, ih (a + 1), Memory.readBytes, List.cons_append]
    rw [show a + 1 + n = a + (n + 1) by omega]

theorem Memory.writeBytes_wf {m : Memory} (h : m.wf) (a : Nat) (bs : List Byte) : (m.writeBytes a bs).wf := by
  induction bs generalizing m a with
  | nil => exact h
  | cons b bs ih => exact ih (Memory.write_wf h a b) (a + 1)

theorem Memory.writeBytes_within {m : Memory} {n : Nat} (h : m.within n) (a : Nat) (bs : List Byte)
    (ha : a + bs.length ≤ n) : (m.writeBytes a bs).within n := by
  induction bs generalizing m a with
  | nil => exact h
  | cons b bs ih =>
    rw [List.length_cons] at ha
    exact ih (Memory.write_within h b (by omega)) (a + 1) (by omega)

/-- A read after writing bytes to consecutive addresses. -/
theorem Memory.read_writeBytes {m : Memory} (h : m.wf) (a : Nat) (bs : List Byte) (q : Nat) :
    (m.writeBytes a bs).read q = if a ≤ q ∧ q < a + bs.length then bs[q - a]?.getD 0 else m.read q := by
  induction bs generalizing m a with
  | nil =>
    rw [if_neg (by simp)]
    rfl
  | cons b bs ih =>
    rw [Memory.writeBytes, ih (Memory.write_wf h a b), Memory.read_write h]
    simp only [List.length_cons]
    by_cases hq : q = a
    · subst hq
      rw [if_neg (by omega), if_pos rfl, if_pos (by omega)]
      simp
    · by_cases hr : a + 1 ≤ q ∧ q < a + 1 + bs.length
      · rw [if_pos hr, if_pos (by omega), show q - a = (q - (a + 1)) + 1 by omega, List.getElem?_cons_succ]
      · rw [if_neg hr, if_neg hq, if_neg (by omega)]

end Sys2Proof.Machine
end

