-- ==== Sys2Proof/Laws/PerInstr.lean ====
section
/-! SUPPORT. The family `EncodedFields`: the fields of every command's word are the ones R70 and R73 give it, a lemma for
each constructor of Instr. -/

namespace Sys2Proof.Laws.EncodedFields

/-- OPC of a command by R73. -/
def operationCode : Instr → Byte
  | .nop => 0x00
  | .clear => 0x01
  | .push _ => 0x02
  | .hash => 0x03
  | .reserved opc => opc

/-- DATA of a command's word by R72 and R78: the byte of PUSH, 0 otherwise. -/
def operandByte : Instr → Byte
  | .nop => 0
  | .clear => 0
  | .push data => data
  | .hash => 0
  | .reserved _ => 0

/-- OPC, DATA and RSV of the encoded word. -/
def Statement (i : Instr) : Prop :=
  opcOf (encode i) = operationCode i ∧ dataOf (encode i) = operandByte i ∧ (encode i).extractLsb' 8 16 = 0

theorem nop : Statement .nop := ⟨commandWord_opc _ _, commandWord_data _ _, commandWord_rsv _ _⟩

theorem clear : Statement .clear := ⟨commandWord_opc _ _, commandWord_data _ _, commandWord_rsv _ _⟩

theorem push (data : Byte) : Statement (.push data) :=
  ⟨commandWord_opc _ _, commandWord_data _ _, commandWord_rsv _ _⟩

theorem hash : Statement .hash := ⟨commandWord_opc _ _, commandWord_data _ _, commandWord_rsv _ _⟩

theorem reserved (opc : Byte) : Statement (.reserved opc) :=
  ⟨commandWord_opc _ _, commandWord_data _ _, commandWord_rsv _ _⟩

end Sys2Proof.Laws.EncodedFields
end

