-- ==== Sys2Proof/Laws/Run.lean ====
section
/-! SUPPORT. Runs of the machine, cut into steps and into parts, and that they are the runs of the host's interface. -/

namespace Sys2Proof.Machine

theorem run_zero (s : State) : run 0 s = .next s := rfl

theorem run_succ {s t : State} (h : step s = .next t) (n : Nat) : run (n + 1) s = run n t := by
  rw [run, h]

theorem run_add {s t : State} {n : Nat} (h : run n s = .next t) (m : Nat) : run (n + m) s = run m t := by
  induction n generalizing s with
  | zero =>
    cases h
    rw [Nat.zero_add]
  | succ n ih =>
    rw [Nat.add_right_comm, run]
    rw [run] at h
    split at h
    · exact ih h
    · cases h
    · cases h

theorem core_run_unfold (M : Host.Core) (s : M.State) (n : Nat) :
    Host.Core.run M (n + 1) s =
      match M.step s with
      | .next t => Host.Core.run M n t
      | .fault f => .fault f
      | .refused r => .refused r := rfl

theorem run_eq_core (n : Nat) (s : State) : run n s = Host.Core.run Sys2Proof.core n s := by
  induction n generalizing s with
  | zero => rfl
  | succ n ih =>
    refine Eq.trans ?_ (core_run_unfold Sys2Proof.core s n).symm
    rw [run]
    cases h : step s with
    | next t =>
      have hc : Sys2Proof.core.step s = .next t := h
      rw [hc]
      exact ih t
    | fault f =>
      have hc : Sys2Proof.core.step s = .fault f := h
      rw [hc]
      rfl
    | refused r =>
      have hc : Sys2Proof.core.step s = .refused r := h
      rw [hc]
      rfl

end Sys2Proof.Machine
end

