-- ==== Sys2Proof/Tests/Slice0.lean ====
section
/-! SUPPORT. The model's own tests, with expected values from 95_test_vectors.md and the encodings of 30_encoding.md, and a
witness for the hypotheses of each statement of Certificates/Slice0/Obligations.lean that has some. -/

open Sys2Proof Sys2Proof.Machine

namespace Sys2Proof.Tests.Slice0

/-! ## Helper states -/

/-- Whether an outcome is a next state. -/
def isNext (o : Outcome) : Bool :=
  match o with
  | .next _ => true
  | .fault _ => false
  | .refused _ => false

/-- The next state of an outcome; of a stop, the reset state. -/
def after (o : Outcome) : State :=
  match o with
  | .next t => t
  | .fault _ => State.reset
  | .refused _ => State.reset

theorem next_after {o : Outcome} (h : isNext o = true) : o = .next (after o) := by
  cases o with
  | next t => rfl
  | fault f => cases h
  | refused r => cases h

/-- The block just after reset, with a capacity and FIRST_BLOCK_ONLY. -/
def fresh (capacity : Word) (firstBlockOnly : Bool) : State :=
  { State.reset with cfg := { defaultConfig with maxMsgBytes := capacity, firstBlockOnly := firstBlockOnly } }

/-- The block in IDLE with a message in its buffer. -/
def holding (capacity : Word) (bytes : List Byte) : State :=
  { fresh capacity false with msg := Memory.writeBytes [] 0 bytes, msgLen := BitVec.ofNat 32 bytes.length }

/-- The block just after HASH. -/
def hashing (capacity : Word) (bytes : List Byte) : State :=
  { holding capacity bytes with phase := .busy, seq := .pad }

/-- A state with one turn pending. -/
def facing (turn : Turn) (s : State) : State := { s with turns := [turn] }

/-- "abc" in a buffer of 8 bytes, just after HASH. -/
def abcAtPad : State := hashing 8 [0x61, 0x62, 0x63]

/-- The same after PAD. -/
def abcAtLoad : State := after (engineTurn abcAtPad)

/-- The same after LOAD. -/
def abcAtRound : State := after (engineTurn abcAtLoad)

/-- BUSY at the round of an index, every round input equal to `v` (vector 2.5.2). -/
def atRound (i : Fin 64) (v : Word) : State :=
  { hashing 8 [] with seq := .round, i := i, work := ⟨v, v, v, v⟩, x := Vector.replicate 16 v }

/-- The rounds of the empty message done (vectors 2.6 and 2.7). -/
def emptyAtFold (firstBlockOnly : Bool) (nb : Nat) : State :=
  { fresh 128 firstBlockOnly with
    phase := .busy
    seq := .fold
    nb := nb
    acc := iv
    work := ⟨0xcc8cbc31, 0x1ceb504e, 0xa07847b9, 0x653d22dc⟩ }

/-- The empty message before FORMAT (vector 2.7). -/
def emptyAtFormat : State :=
  { fresh 128 false with phase := .busy, seq := .format, acc := ⟨0xcdb00198, 0xa6971e3d, 0x9f550251, 0xdb9154ec⟩ }

/-- The empty message in DONE. -/
def emptyDone : State := after (engineTurn emptyAtFormat)

/-- DONE with three bytes in the buffer and ERR_FULL. -/
def doneFull : State := { holding 3 [0x61, 0x62, 0x63] with phase := .done, resValid := true, errFull := true }

/-! ## Commands as syntax, and their words -/

theorem test_wf_refuses_reserved_codes_below_four :
    [0, 1, 2, 3].map (fun opc : Byte => (Instr.reserved opc).wf) = [false, false, false, false] := by decide

theorem test_wf_accepts_the_commands :
    [Instr.nop, .clear, .push 0xff, .hash, .reserved 4, .reserved 0xff].map Instr.wf =
      [true, true, true, true, true, true] := by decide

/-- OPC 0x00 with every ignored bit 1 (R75). -/
theorem test_decode_nop : decode 0b00000000111111111111111111111111#32 = .nop := by decide

theorem test_decode_clear : decode 0b00000001000000000000000000000000#32 = .clear := by decide

/-- DATA = 0x61, RSV = 0x00ff (R81). -/
theorem test_decode_push : decode 0b00000010000000001111111101100001#32 = .push 0x61 := by decide

theorem test_decode_hash : decode 0b00000011111111111111111111111111#32 = .hash := by decide

theorem test_decode_reserved :
    decode 0b00000100000000000000000000000000#32 = .reserved 0x04 ∧
    decode 0b11111111000000000000000000000000#32 = .reserved 0xff := by decide

theorem test_decode_reserved_row_pieces :
    [0x08000000, 0x10000000, 0x20000000, 0x40000000, 0x80000000].map (decodeTableWord 32) =
      [some (.reserved 0x08), some (.reserved 0x10), some (.reserved 0x20), some (.reserved 0x40),
        some (.reserved 0x80)] := by decide

theorem test_encode_push : encode (.push 0x80) = 0x02000080 := by decide

theorem test_fetch_word_runs_first : (after (step (State.reset.withFetchWord 32 0x02000061))).msg = [(0, 0x61)] := by
  decide

/-! ## Commands, one step each (vectors 2.9) -/

theorem test_nop_while_busy : after (step (facing (Turn.command 0x00ffffff) abcAtPad)) = abcAtPad := by decide

theorem test_clear_accepted :
    let t := after (step (facing (Turn.command 0x01000000) doneFull))
    t.msgLen = 0 ∧ t.status = 0x00 := by decide

theorem test_clear_while_busy :
    (after (step (facing (Turn.command 0x01000000) abcAtPad))).status = 0x09 := by decide

theorem test_push_after_done :
    let t := after (step (facing (Turn.command 0x0200ff61)
      { doneFull with cfg := { doneFull.cfg with maxMsgBytes := 4 }, errFull := false }))
    t.msg = [(0, 0x61), (1, 0x62), (2, 0x63), (3, 0x61)] ∧ t.msgLen = 4 ∧ t.status = 0x00 := by decide

theorem test_push_at_capacity :
    [holding 3 [0x61, 0x62, 0x63], hashing 3 [0x61, 0x62, 0x63]].map
      (fun s => (after (step (facing (Turn.command 0x02000061) s))).status) = [0x10, 0x09] := by decide

theorem test_hash_from_done :
    let t := after (step (facing (Turn.command 0x03ffffff) { doneFull with errFull := false }))
    t.status = 0x01 ∧ t.msg = doneFull.msg := by decide

theorem test_hash_with_first_block_only :
    (after (step (facing (Turn.command 0x03000000) (fresh 8 true)))).status = 0x21 := by decide

theorem test_reserved_in_idle :
    (after (step (facing (Turn.command 0x04000000) (fresh 8 false)))).status = 0x04 := by decide

theorem test_reserved_while_busy :
    (after (step (facing (Turn.command 0xff000000) abcAtPad))).status = 0x05 := by decide

/-! ## The host port -/

theorem test_reads_of_a_result :
    [8, 11, 12, 19].map (fun n : RegNum => (after (step (facing (.host (.read n)) emptyDone))).reads.map ReadResult.value) =
      [[0x9801b0cd], [0xec5491db], [0x31303839], [0x62643139]] := by decide

theorem test_reads_of_state_and_constants :
    [0, 1, 2, 3, 4, 7, 20, 31].map
      (fun n : RegNum => (after (step (facing (.host (.read n)) emptyDone))).reads.map ReadResult.value) =
      [[0], [2], [0], [128], [0xcdb00198], [0xdb9154ec], [0], [0]] := by decide

theorem test_write_to_another_register :
    [1, 31].map (fun n : RegNum => after (step (facing (.host (.write n 0x03000000)) emptyDone))) =
      [emptyDone, emptyDone] := by decide

theorem test_reset_while_busy : (after (step (facing .reset abcAtPad))).status = 0 := by decide

/-! ## Padding and blocks (vectors 2.1 and 2.2) -/

theorem test_pad_bytes_of_abc :
    abcAtLoad.pad = [(0, 0x61), (1, 0x62), (2, 0x63), (3, 0x80), (56, 0x18)] ∧ abcAtLoad.nb = 1 ∧
    abcAtLoad.lenBits = 24 := by decide

theorem test_pad_two_blocks :
    (padBytes (List.replicate 56 0x61)).drop 120 = [0xc0, 0x01, 0, 0, 0, 0, 0, 0] ∧
    (padBytes (List.replicate 56 0x61)).length = 128 := by decide +kernel

/-- The last row of vector 2.1.1, L = 2^32 - 1: byte 4 of the length field is 07, so word 15 is not 0 there (log 14). -/
theorem test_length_field_of_the_longest_message :
    le64Bytes (bitLength (2 ^ 32 - 1)) = [0xf8, 0xff, 0xff, 0xff, 0x07, 0, 0, 0] := by decide

theorem test_load_of_abc :
    abcAtRound.x = #v[0x80636261, 0, 0, 0, 0, 0, 0, 0, 0, 0, 0, 0, 0, 0, 0x18, 0] ∧ abcAtRound.work = iv := by decide

/-! ## The round, the fold and the formatter (vectors 2.3 to 2.8) -/

theorem test_mixing_truth_table :
    mixF 0xf0f0f0f0 0xcccccccc 0xaaaaaaaa = 0xcacacaca ∧ mixG 0xf0f0f0f0 0xcccccccc 0xaaaaaaaa = 0xe4e4e4e4 ∧
    mixH 0xf0f0f0f0 0xcccccccc 0xaaaaaaaa = 0x96969696 ∧ mixI 0xf0f0f0f0 0xcccccccc 0xaaaaaaaa = 0x39393939 := by decide

theorem test_rotations :
    rotl32 0xdeadbeef 7 = 0x56df77ef ∧ rotl32 0x80000001 12 = 0x00001800 ∧ rotl32 0x00000001 31 = 0x80000000 ∧
    rotl32 0x0000ffff 23 = 0xff80007f := by decide

theorem test_constants :
    kDefault[0] = 0xd76aa478 ∧ kDefault[3] = 0xc1bdceee ∧ kDefault[63] = 0xeb86d391 ∧
    [0, 1, 2, 3, 60, 61, 62, 63].map (fun i : Fin 64 => rotAmount i) = [7, 12, 17, 22, 6, 10, 15, 21] := by decide

/-- Vector 2.5.1. -/
theorem test_round_zero_of_the_empty_message :
    (after (engineTurn { atRound 0 0 with work := iv, x := (Vector.replicate 16 0).set 0 0x80 })).work =
      ⟨0x76543210, 0x3efe49da, 0x89abcdef, 0xfedcba98⟩ := by decide

/-- Vector 2.5.2, every input ffffffff. -/
theorem test_rounds_at_quarter_boundaries :
    [0, 15, 16, 31, 32, 47, 48, 63].map (fun i : Fin 64 => (after (engineTurn (atRound i 0xffffffff))).work.b) =
      [0xb5523aea, 0x07926d01, 0xc3c4abfd, 0xc878d2a3, 0xffa393fe, 0x3162562a, 0x0a4890bc, 0x71fd70d9] := by decide

theorem test_fold_of_the_empty_message :
    (after (engineTurn (emptyAtFold false 1))).acc = ⟨0xcdb00198, 0xa6971e3d, 0x9f550251, 0xdb9154ec⟩ := by decide

/-- The last round of a block goes to FOLD; FOLD goes to LOAD, or to FORMAT after the last block or under
FIRST_BLOCK_ONLY (R191). -/
theorem test_sequencer_branches :
    [atRound 62 0, atRound 63 0, emptyAtFold false 2, emptyAtFold false 1, emptyAtFold true 2].map
      (fun s => (after (engineTurn s)).seq) = [.round, .fold, .load, .format, .format] := by decide

theorem test_format_of_the_empty_message :
    emptyDone.digest = #v[0x9801b0cd, 0x3d1e97a6, 0x5102559f, 0xec5491db] ∧
    emptyDone.hexc.toList.take 8 = [0x39, 0x38, 0x30, 0x31, 0x62, 0x30, 0x63, 0x64] ∧ emptyDone.status = 2 := by decide

/-- Vector S0 of 95_test_vectors.md, all 64 rounds. -/
theorem test_hash_state_of_the_empty_message :
    hashState defaultConfig [] = ⟨0xcdb00198, 0xa6971e3d, 0x9f550251, 0xdb9154ec⟩ := by decide +kernel

/-! ## Witnesses of the statements' hypotheses, in the order of the statements -/

theorem witness_OpcodeMapOfEveryWord :
    [0x00ffffff, 0x01000000, 0x020000ff, 0x03ffffff, 0x04000000, 0xff000000].map
      (fun w : Word => (w.extractLsb' 24 8).toNat) = [0, 1, 2, 3, 4, 255] := by decide

theorem witness_IgnoredBitsChangeNothing :
    ((0x00ffffff : Word) ≠ 0 ∧ (0x00ffffff : Word).extractLsb' 24 8 = (0 : Word).extractLsb' 24 8 ∧
      (0x00ffffff : Word).extractLsb' 24 8 ≠ 2) ∧
    ((0x0200ff61 : Word).extractLsb' 24 8 = (0x02000061 : Word).extractLsb' 24 8 ∧
      (0x0200ff61 : Word).extractLsb' 0 8 = (0x02000061 : Word).extractLsb' 0 8) := by decide

theorem witness_DecodeOfEncodeIsTheCommand : (Instr.reserved 4).wf = true ∧ (Instr.push 0xff).wf = true := by decide

theorem witness_StepPerformsTheWrittenCommand :
    (facing (Turn.command 0x03000000) abcAtPad).turns = .host (.write 0 0x03000000) :: [] := by decide

theorem witness_StepRunsTheEngine :
    (facing .engine abcAtPad).turns = .engine :: [] ∧ abcAtPad.turns = [] ∧ emptyDone.phase ≠ .busy ∧
    [abcAtPad, abcAtLoad, abcAtRound, emptyAtFold false 1, emptyAtFormat].map (fun s => (s.phase, s.seq)) =
      [(.busy, .pad), (.busy, .load), (.busy, .round), (.busy, .fold), (.busy, .format)] := by decide

theorem witness_NopChangesNothing :
    (facing (Turn.command 0x00ffffff) abcAtPad).turns = Turn.command 0x00ffffff :: [] ∧
    (0x00ffffff : Word).extractLsb' 24 8 = 0 := by decide

theorem witness_ClearEmptiesTheMessageAndTheErrors : doneFull.phase ≠ .busy ∧ abcAtPad.phase = .busy := by decide

theorem witness_PushAppendsOneByte :
    (abcAtPad.msg.wf ∧ abcAtPad.phase = .busy) ∧
    (doneFull.msg.wf ∧ doneFull.phase ≠ .busy ∧ doneFull.msgLen = doneFull.cfg.maxMsgBytes) ∧
    ((holding 4 [0x61, 0x62, 0x63]).msg.wf ∧ (holding 4 [0x61, 0x62, 0x63]).phase ≠ .busy ∧
      (holding 4 [0x61, 0x62, 0x63]).msgLen.toNat < (holding 4 [0x61, 0x62, 0x63]).cfg.maxMsgBytes.toNat) := by decide

theorem witness_PushExtendsTheMessage :
    (holding 4 [0x61, 0x62, 0x63]).msg.wf ∧ (holding 4 [0x61, 0x62, 0x63]).phase ≠ .busy ∧
    (holding 4 [0x61, 0x62, 0x63]).msgLen.toNat < (holding 4 [0x61, 0x62, 0x63]).cfg.maxMsgBytes.toNat ∧
    exec (.push 0x64) (holding 4 [0x61, 0x62, 0x63]) = .next (after (exec (.push 0x64) (holding 4 [0x61, 0x62, 0x63]))) :=
  ⟨by decide, by decide, by decide, next_after (by decide)⟩

theorem witness_HashStartsTheEngine : doneFull.phase ≠ .busy ∧ abcAtPad.phase = .busy := by decide

theorem witness_ReservedCommandRaisesErrCmd :
    (facing (Turn.command 0x04000000) abcAtPad).turns = Turn.command 0x04000000 :: [] ∧
    4 ≤ ((0x04000000 : Word).extractLsb' 24 8).toNat := by decide

theorem witness_CommandDispatchOrder :
    (facing (Turn.command 0x02000061) doneFull).turns = Turn.command 0x02000061 :: [] ∧
    (facing (Turn.command 0x02000061) doneFull).msgLen.toNat ≤
      (facing (Turn.command 0x02000061) doneFull).cfg.maxMsgBytes.toNat := by decide

/-- A reserved command, a command while BUSY (OPC 1 and 3), and a PUSH at capacity. -/
theorem witness_OneCommandRaisesOneError :
    (4 ≤ ((0x04000000 : Word).extractLsb' 24 8).toNat ∧ isNext (step (facing (Turn.command 0x04000000) abcAtPad)) = true) ∧
    (((0x01000000 : Word).extractLsb' 24 8).toNat = 1 ∧ ((0x03000000 : Word).extractLsb' 24 8).toNat = 3 ∧
      abcAtPad.phase = .busy ∧ isNext (step (facing (Turn.command 0x01000000) abcAtPad)) = true ∧
      isNext (step (facing (Turn.command 0x03000000) abcAtPad)) = true) ∧
    (((0x02000061 : Word).extractLsb' 24 8).toNat = 2 ∧ doneFull.phase ≠ .busy ∧
      doneFull.msgLen = doneFull.cfg.maxMsgBytes ∧ isNext (step (facing (Turn.command 0x02000061) doneFull)) = true) := by
  decide

theorem witness_CommandFrame :
    doneFull.msg.wf ∧ (holding 4 [0x61]).msg.wf ∧
    [Instr.nop, .clear, .push 0x61, .hash, .reserved 4].map (fun i => isNext (exec i doneFull)) =
      [true, true, true, true, true] ∧
    isNext (exec (.push 0x61) (holding 4 [0x61])) = true := by decide

theorem witness_WritesToOtherRegistersAreIgnored :
    [0, 1, 31].map (fun n : RegNum => (facing (.host (.write n 0x03000000)) doneFull).turns) =
      [[.host (.write 0 0x03000000)], [.host (.write 1 0x03000000)], [.host (.write 31 0x03000000)]] := by decide

/-- A register 0 to 3 or 20 to 31 in a BUSY state, and registers 4 to 19 where they are defined: each number falls under
one clause of the statement. -/
theorem witness_RegisterReadValues :
    (∀ n : RegNum, (facing (.host (.read n)) emptyDone).turns = .host (.read n) :: [] ∧
      ((facing (.host (.read n)) emptyDone).phase ≠ .busy ∧ (facing (.host (.read n)) emptyDone).resValid = true)) ∧
    ([0, 1, 2, 3, 20, 31].map fun n : RegNum => decide (4 ≤ n.toNat ∧ n.toNat ≤ 19)) =
      [false, false, false, false, false, false] ∧
    ([8, 11].map fun n : RegNum => (List.finRange 4).map fun k => decide (n.toNat = 8 + k.val)) =
      [[true, false, false, false], [false, false, false, true]] ∧
    ([11, 12, 19, 20].map fun n : RegNum => (List.finRange 8).any fun k => decide (n.toNat = 12 + k.val)) =
      [false, true, true, false] := by decide

theorem witness_UndefinedResultReadsAreDraws :
    ((facing (.host (.read 4)) abcAtPad).turns = .host (.read 4) :: [] ∧ 4 ≤ (4 : RegNum).toNat ∧
      (4 : RegNum).toNat ≤ 19 ∧ (facing (.host (.read 4)) abcAtPad).phase = .busy) ∧
    ((facing (.host (.read 19)) (fresh 8 false)).turns = .host (.read 19) :: [] ∧ 4 ≤ (19 : RegNum).toNat ∧
      (19 : RegNum).toNat ≤ 19 ∧ (facing (.host (.read 19)) (fresh 8 false)).resValid = false) := by decide

theorem witness_ReadsAreIdempotent :
    let s : State := { emptyDone with turns := [.host (.read 12), .host (.read 12)] }
    s.turns = .host (.read 12) :: .host (.read 12) :: [] ∧ s.phase ≠ .busy ∧ s.resValid = true := by decide

/-- A step that sets each error bit, and two that clear one. -/
theorem witness_OnlyRaiseSetsAndOnlyClearOrResetClears :
    (abcAtPad.errCmd = false ∧ (after (step (facing (Turn.command 0x04000000) abcAtPad))).errCmd = true) ∧
    (abcAtPad.errBusy = false ∧ (after (step (facing (Turn.command 0x03000000) abcAtPad))).errBusy = true) ∧
    ((holding 1 [0x61]).errFull = false ∧
      (after (step (facing (Turn.command 0x02000061) (holding 1 [0x61])))).errFull = true) ∧
    (doneFull.errFull = true ∧ (after (step (facing (Turn.command 0x01000000) doneFull))).errFull = false) ∧
    (doneFull.errFull = true ∧ (after (step (facing .reset doneFull))).errFull = false) := by decide

theorem witness_PadMicroStepWritesThePaddedMessage :
    abcAtPad.phase = .busy ∧ abcAtPad.seq = .pad ∧ abcAtPad.msgLen.toNat ≤ abcAtPad.cfg.maxMsgBytes.toNat ∧
    abcAtPad.pad.wf := by decide

/-- A message at the capacity. -/
theorem witness_PaddedLengthIsWholeBlocks :
    (List.replicate 56 (0x61 : Byte)).length ≤ (fresh 56 false).cfg.maxMsgBytes.toNat := by decide

theorem witness_CapturedLengthNeverWraps :
    abcAtPad.phase = .busy ∧ abcAtPad.seq = .pad ∧ abcAtPad.pad.wf ∧ isNext (engineTurn abcAtPad) = true := by decide

theorem witness_LoadMicroStepReadsTheBlock :
    abcAtLoad.phase = .busy ∧ abcAtLoad.seq = .load ∧ abcAtLoad.j < abcAtLoad.cfg.nbMax := by decide

/-- Messages on both sides of the bound at which word 15 stops being 0. -/
theorem witness_PaddingInTheWords :
    ((List.replicate (2 ^ 29 - 1) (0x61 : Byte)).length < 2 ^ 32 ∧ (List.replicate (2 ^ 29 - 1) (0x61 : Byte)).length < 2 ^ 29) ∧
    ((List.replicate (2 ^ 29) (0x61 : Byte)).length < 2 ^ 32 ∧
      ¬(List.replicate (2 ^ 29) (0x61 : Byte)).length < 2 ^ 29) := by
  simp only [List.length_replicate]
  decide

theorem witness_RotationReentersTheHighBits : (1 ≤ 1 ∧ 1 ≤ 31) ∧ (1 ≤ 31 ∧ 31 ≤ 31) := by decide

theorem witness_RoundMicroStep :
    [0, 15, 16, 31, 32, 47, 48, 62, 63].map (fun i : Fin 64 =>
      ((atRound i 0).phase, (atRound i 0).seq, decide ((atRound i 0).i.val < 63))) =
      [(.busy, .round, true), (.busy, .round, true), (.busy, .round, true), (.busy, .round, true), (.busy, .round, true),
        (.busy, .round, true), (.busy, .round, true), (.busy, .round, true), (.busy, .round, false)] := by decide

theorem witness_FoldMicroStep :
    [emptyAtFold false 1, emptyAtFold true 2, emptyAtFold false 2].map (fun s =>
      (s.phase, s.seq, decide (s.cfg.firstBlockOnly = true ∨ s.j + 1 = s.nb))) =
      [(.busy, .fold, true), (.busy, .fold, true), (.busy, .fold, false)] := by decide

theorem witness_FormatMicroStep : emptyAtFormat.phase = .busy ∧ emptyAtFormat.seq = .format := by decide

/-- A character list to range over. -/
theorem witness_HexCharactersAreLowercaseHexDigits :
    (0x30 : Byte) ∈ (hexChars (Vector.replicate 4 0)).toList := by decide

theorem witness_SequencerTransitionTable :
    (doneFull.phase ≠ .busy ∧ isNext (exec .hash doneFull) = true) ∧
    [abcAtPad, abcAtLoad, atRound 62 0, atRound 63 0, emptyAtFold false 1, emptyAtFold true 2, emptyAtFold false 2,
      emptyAtFormat].map (fun s => (s.phase, s.seq, isNext (engineTurn s))) =
      [(.busy, .pad, true), (.busy, .load, true), (.busy, .round, true), (.busy, .round, true), (.busy, .fold, true),
        (.busy, .fold, true), (.busy, .fold, true), (.busy, .format, true)] := by decide

theorem witness_SingleBlockResultsIgnoreFirstBlockOnly : (List.replicate 55 (0x61 : Byte)).length ≤ 55 := by decide

theorem witness_ResetInputAbandonsTheHash : (facing .reset abcAtPad).turns = .reset :: [] := by decide

theorem witness_EveryStepKeepsTheInvariant :
    [abcAtPad, abcAtLoad, abcAtRound, emptyAtFold false 2, emptyAtFormat, emptyDone, doneFull,
      facing (Turn.command 0x02000061) (holding 4 [0x61])].all (fun s => decide s.Inv && isNext (step s)) = true := by
  decide

theorem witness_NoStepStops : abcAtPad.Inv := by decide

theorem witness_NoStepChangesTheParameters : step abcAtPad = .next (after (step abcAtPad)) := next_after (by decide)

theorem witness_ModelHoldsOneCyclesPerStep : step abcAtPad = .next (after (step abcAtPad)) := next_after (by decide)

/-- For each item a step that changes it. -/
theorem witness_WritersOfEachItem :
    (let s := facing (Turn.command 0x02000062) (holding 4 [0x61]);
      (after (step s)).msg ≠ s.msg ∧ (after (step s)).msgLen ≠ s.msgLen ∧ s.nextTurn ≠ .reset) ∧
    (abcAtLoad.lenBits ≠ abcAtPad.lenBits ∧ abcAtLoad.pad ≠ abcAtPad.pad ∧ abcAtLoad.acc ≠ abcAtPad.acc) ∧
    (abcAtRound.work ≠ abcAtLoad.work ∧ abcAtRound.x ≠ abcAtLoad.x) ∧
    (emptyDone.digest ≠ emptyAtFormat.digest ∧ emptyDone.hexc ≠ emptyAtFormat.hexc ∧
      emptyDone.resValid ≠ emptyAtFormat.resValid) ∧
    (let s := facing (Turn.command 0x03000000) (holding 4 [0x61]);
      (after (step s)).phase = .busy ∧ s.phase ≠ .busy) ∧
    (after (step { hashing 64 (List.replicate 56 0x61) with nb := 1 })).nb ≠ 1 := by decide +kernel

/-- Steps that change PHASE to each of its values, SEQ, j and i. -/
theorem witness_WritersOfEachItem_position :
    [facing (Turn.command 0x01000000) doneFull, facing (Turn.command 0x02000061) { holding 4 [0x61] with phase := .done },
      facing (Turn.command 0x03000000) doneFull, emptyAtFormat].map (fun s => (s.phase, (after (step s)).phase)) =
      [(.done, .idle), (.done, .idle), (.done, .busy), (.busy, .done)] ∧
    [facing (Turn.command 0x03000000) { doneFull with seq := .format }, abcAtPad, abcAtLoad, atRound 63 0,
      emptyAtFold false 1].all (fun s => (after (step s)).seq ≠ s.seq) = true ∧
    [{ abcAtPad with j := 3 }, emptyAtFold false 2].all (fun s => (after (step s)).j ≠ s.j) = true ∧
    [{ abcAtLoad with i := 63 }, atRound 62 0].all (fun s => (after (step s)).i ≠ s.i) = true := by decide

/-- Steps that set each error bit, and a CLEAR that clears all three. -/
theorem witness_WritersOfEachItem_errors :
    (after (step (facing (Turn.command 0x04000000) abcAtPad))).errCmd ≠ abcAtPad.errCmd ∧
    [0x01000000, 0x02000061, 0x03000000].all
      (fun w : Word => (after (step (facing (Turn.command w) abcAtPad))).errBusy ≠ abcAtPad.errBusy) = true ∧
    (after (step (facing (Turn.command 0x02000061) (holding 1 [0x61])))).errFull ≠ (holding 1 [0x61]).errFull ∧
    (let s := facing (Turn.command 0x01000000) { doneFull with errCmd := true, errBusy := true };
      (after (step s)).errCmd ≠ s.errCmd ∧ (after (step s)).errBusy ≠ s.errBusy ∧
      (after (step s)).errFull ≠ s.errFull) := by decide

theorem witness_ResultValidOnlyByFormat :
    (emptyAtFormat.resValid = false ∧ (after (step emptyAtFormat)).resValid = true) ∧
    (emptyDone.resValid = true ∧ (after (step (facing .reset emptyDone))).resValid = false) ∧
    ((emptyDone.phase = .done → emptyDone.resValid = true) ∧ isNext (step emptyDone) = true ∧
      (after (step emptyDone)).phase = .done) := by decide

/-- BUSY that stays, that ends by FORMAT, and that ends by reset. -/
theorem witness_BusyEndsOnlyByFormatOrReset :
    [abcAtPad, emptyAtFormat, facing .reset abcAtPad].map (fun s => (s.phase, (after (step s)).phase)) =
      [(.busy, .busy), (.busy, .done), (.busy, .idle)] := by decide

theorem witness_HostCannotDisturbABusyHash :
    let s := facing (.host (.write 0 0x01000000)) abcAtPad
    s.phase = .busy ∧ s.turns = .host (.write 0 0x01000000) :: [] ∧ isNext (step s) = true := by decide

/-- A PUSH after DONE. -/
theorem witness_ResultsStayUntilHashOrReset :
    let s := facing (Turn.command 0x02000061) emptyDone
    s.phase ≠ .busy ∧ s.resValid = true ∧ isNext (step s) = true ∧ s.nextTurn ≠ .reset ∧
    s.nextTurn = Turn.command 0x02000061 ∧ ((0x02000061 : Word).extractLsb' 24 8).toNat ≠ 3 := by decide

theorem witness_MicroStepsLeftCountsDown :
    (abcAtPad.Inv ∧ abcAtPad.phase = .busy ∧ isNext (step abcAtPad) = true ∧ abcAtPad.nextTurn = .engine) ∧
    (let s := facing (.host (.read 1)) abcAtPad;
      s.Inv ∧ s.phase = .busy ∧ isNext (step s) = true ∧ s.nextTurn = .host (.read 1)) := by decide

theorem witness_HashTakesExactlyTheCountedMicroSteps :
    abcAtPad.Inv ∧ abcAtPad.phase = .busy ∧ abcAtPad.seq = .pad ∧ abcAtPad.turns = [] := by decide

/-- Before PAD, before LOAD and before the first round of "abc", and a block in IDLE. -/
theorem witness_EveryStepKeepsTheHashInvariant :
    [abcAtPad, abcAtLoad, abcAtRound, holding 4 [0x61]].all
      (fun s => decide s.Inv && decide s.HashInv && isNext (step s)) = true := by decide +kernel

theorem witness_HostSequenceComputesTheHash :
    let s : State := { doneFull with turns := turnsOf (asmHashs [0x61, 0x62]) }
    s.Inv ∧ s.phase ≠ .busy ∧ [(0x61 : Byte), 0x62].length ≤ s.cfg.maxMsgBytes.toNat ∧
    s.turns = turnsOf (asmHashs [0x61, 0x62]) := by decide

/-- The host's turns of the next witness: a STATUS read and a refused CLEAR among 67 engine turns. -/
def busyTurns : List Turn :=
  List.replicate 30 .engine ++ [.host (.read 1), Turn.command 0x01000000] ++ List.replicate 37 .engine

theorem witness_EveryInterleavingComputesTheHash :
    let s : State := { abcAtPad with turns := busyTurns ++ .engine :: [.host (.read 12)] }
    s.Inv ∧ s.phase = .busy ∧ s.seq = .pad ∧ s.turns = busyTurns ++ .engine :: [.host (.read 12)] ∧
    .reset ∉ busyTurns ∧
    busyTurns.count .engine + 1 = 2 + 66 * effectiveBlocks s.cfg.firstBlockOnly s.message := by decide

theorem witness_NoHiddenStateBetweenHashes :
    let s := abcAtPad
    let t : State := { abcAtPad with acc := iv, x := Vector.replicate 16 1, resValid := true, errFull := true }
    s ≠ t ∧ (s.Inv ∧ t.Inv) ∧ (s.phase = .busy ∧ t.phase = .busy) ∧ (s.seq = .pad ∧ t.seq = .pad) ∧
    (s.turns = [] ∧ t.turns = []) ∧ s.message = t.message ∧ s.cfg.kTable = t.cfg.kTable ∧
    s.cfg.firstBlockOnly = t.cfg.firstBlockOnly := by decide

/-- Just out of reset, with a read of STATE_A and a HASH to come. -/
def leftReset : State := { fresh 8 false with turns := [.host (.read 4), Turn.command 0x03000000] }

/-- The same with other values in items that R261 calls unspecified. -/
def leftResetOtherwise : State :=
  { leftReset with acc := iv, msg := [(0, 0x61)], pad := [(5, 0x80)], seq := .fold, j := 7 }

theorem witness_UnspecifiedResetValuesAreNeverObserved :
    leftReset ≠ leftResetOtherwise ∧ bothJustReset leftReset leftResetOtherwise :=
  ⟨by decide, ⟨by decide, by decide⟩, by decide, by decide, by decide, by decide, by decide, by decide, by decide,
    by decide, by decide, by decide⟩

/-- A program of section 3 of 95_test_vectors.md in miniature: HASH, WAITDONE, RDHEX and RDSTATE. -/
def pollingProgram : List Stmt :=
  [asmHash] ++ asmWaitDone 0 1 ++ asmRdHex (fun n => n.val + 1) ++ asmRdState fun k => k.val + 9

/-- A host at an index of that program, with a block. -/
def polling (pc : Nat) (block : State) : HostedSystem := ⟨⟨pollingProgram, pc, []⟩, block⟩

/-- WAITDONE at index 1, at a BUSY block and at one in DONE. -/
theorem witness_PseudoInstructionExpansions :
    (19 : RegNum).toNat < 20 ∧
    ((polling 1 abcAtPad).host.holdsAt 1 (asmWaitDone 0 1) ∧ (polling 1 abcAtPad).block.phase = .busy) ∧
    ((polling 1 emptyDone).host.holdsAt 1 (asmWaitDone 0 1) ∧ (polling 1 emptyDone).block.phase ≠ .busy) := by decide

/-- RDHEX at index 5 and RDSTATE at index 13, variables all different, and a result that is defined. -/
theorem witness_RdHexAndRdStateReadTheResult :
    ((polling 5 emptyDone).host.holdsAt 5 (asmRdHex fun n => n.val + 1) ∧
      ∀ n m : Fin 8, n < m → m.val + 1 ≠ n.val + 1) ∧
    ((polling 13 emptyDone).host.holdsAt 13 (asmRdState fun k => k.val + 9) ∧
      ∀ n m : Fin 4, n < m → m.val + 9 ≠ n.val + 9) ∧
    (emptyDone.phase ≠ .busy ∧ emptyDone.resValid = true) ∧ abcAtPad.phase = .busy := by decide

end Sys2Proof.Tests.Slice0
end

/-! The rotation of R10: its two shifted parts share no bit, so joining them is adding them. -/

namespace Sys2Proof.Machine

/-- The `n` low bits that a left shift clears are the only ones that the right shift of R10 fills. -/
theorem shiftLeft_and_ushiftRight_eq_zero (x : Word) {n : Nat} (hn : n ≤ 32) :
    (x <<< n) &&& (x >>> (32 - n)) = 0#32 := by
  ext k hk
  by_cases h : k < n
  · simp [h]
  · have : x.getLsbD (32 - n + k) = false := BitVec.getLsbD_of_ge _ _ (by omega)
    simp [this]

theorem toNat_rotl32 (x : Word) {n : Nat} (hn : n ≤ 32) :
    (rotl32 x n).toNat = x.toNat * 2 ^ n % 2 ^ 32 + x.toNat / 2 ^ (32 - n) := by
  have disjoint := shiftLeft_and_ushiftRight_eq_zero x hn
  calc (rotl32 x n).toNat
    _ = (x <<< n + x >>> (32 - n)).toNat := by rw [rotl32, BitVec.add_eq_or_of_and_eq_zero _ _ disjoint]
    _ = (x <<< n).toNat + (x >>> (32 - n)).toNat := BitVec.toNat_add_of_and_eq_zero disjoint
    _ = x.toNat * 2 ^ n % 2 ^ 32 + x.toNat / 2 ^ (32 - n) := by
      rw [BitVec.toNat_shiftLeft, BitVec.toNat_ushiftRight, Nat.shiftLeft_eq, Nat.shiftRight_eq_div_pow]

theorem rotl32_eq_rotateLeft (x : Word) {n : Nat} (hn : n < 32) : rotl32 x n = x.rotateLeft n := by
  rw [rotl32, BitVec.rotateLeft_def, Nat.mod_eq_of_lt hn]

/-- Settles O29: the sum is that of two words with no bit in common, and the library's rotation is the same pair of
shifts once the amount is below the width. -/
theorem rotationReentersTheHighBits : Obligations.RotationReentersTheHighBits := by
  intro x n _ hn
  exact ⟨toNat_rotl32 x (by omega), rotl32_eq_rotateLeft x (by omega)⟩

end Sys2Proof.Machine

/-! The invariant of the machine (R21, R22, R24, R30, R38, R50): every effect of a turn keeps it. -/

namespace Sys2Proof.Machine

/-- NB of R102 by the length of the message, whatever the eight bytes of the length field are. -/
theorem blockCount_padWith (m : List Byte) (v : DWord) : blockCount (padWith m v) = (m.length + 8) / 64 + 1 := by
  have hz := zeroCount_spec m.length
  rw [blockCount, padWith_length]
  omega

theorem padWith_length_eq_blocks (m : List Byte) (v : DWord) :
    (padWith m v).length = 64 * blockCount (padWith m v) := by
  have hz := zeroCount_spec m.length
  rw [blockCount, padWith_length]
  omega

theorem blockCount_padWith_le_nbMax {m : List Byte} {cfg : Config} (h : m.length ≤ cfg.maxMsgBytes.toNat) (v : DWord) :
    blockCount (padWith m v) ≤ cfg.nbMax := by
  rw [blockCount_padWith, Config.nbMax]
  omega

@[simp] theorem State.message_length (s : State) : s.message.length = s.msgLen.toNat :=
  Memory.readBytes_length s.msg 0 s.msgLen.toNat

/-- MSG_LEN + 1 does not wrap where MSG_LEN is below some word, as it is below the capacity at an accepted PUSH. -/
theorem toNat_succ_of_lt {x y : Word} (h : x.toNat < y.toNat) : (x + 1).toNat = x.toNat + 1 := by
  bv_omega

theorem CommandEffect.keeps_inv {s t : State} {i : Instr} (h : CommandEffect s i t) (hs : s.Inv) : t.Inv := by
  obtain ⟨hmem, hlen, hnb, hj, hdone⟩ := hs
  cases h with
  | clear => exact ⟨hmem, Nat.zero_le _, hnb, nofun, nofun⟩
  | push data h hm hl =>
    obtain ⟨hmsg, hmsgIn, hpad⟩ := hmem
    have hlen' : (s.msgLen + 1).toNat ≤ s.cfg.maxMsgBytes.toNat := by
      rw [toNat_succ_of_lt hl]
      exact hl
    exact ⟨⟨Memory.write_wf hmsg _ _, Memory.write_within hmsgIn data hl, hpad⟩, hlen', hnb, nofun, nofun⟩
  | hash => exact ⟨hmem, hlen, hnb, fun _ hseq => absurd rfl hseq, nofun⟩
  | nop | full | busyClear | busyPush | busyHash | reserved => exact ⟨hmem, hlen, hnb, hj, hdone⟩

theorem EngineEffect.keeps_inv {s t : State} (h : EngineEffect s t) (hs : s.Inv) : t.Inv := by
  obtain ⟨hmem, hlen, hnb, hj, hdone⟩ := hs
  cases h with
  | pad h hseq hl =>
    obtain ⟨hmsg, hmsgIn, hpad, hpadIn⟩ := hmem
    have hle : blockCount (padWith s.message (bitLength s.msgLen.toNat)) ≤ s.cfg.nbMax :=
      blockCount_padWith_le_nbMax (by rwa [State.message_length]) _
    have hpos : 1 ≤ blockCount (padWith s.message (bitLength s.msgLen.toNat)) := by
      rw [blockCount_padWith]
      omega
    have hfits : 0 + (padWith s.message (bitLength s.msgLen.toNat)).length ≤ s.padSize := by
      rw [padWith_length_eq_blocks, State.padSize]
      omega
    exact ⟨⟨hmsg, hmsgIn, Memory.writeBytes_wf hpad _ _, Memory.writeBytes_within hpadIn _ _ hfits⟩, hlen,
      ⟨hpos, hle⟩, fun _ _ => hpos, hdone⟩
  | load h hseq | lastRound h hseq | lastFold h hseq =>
    exact ⟨hmem, hlen, hnb, fun _ _ => hj h (by simp [hseq]), hdone⟩
  | rest | round => exact ⟨hmem, hlen, hnb, hj, hdone⟩
  | fold h hseq hf hlast =>
    have hlt : s.j < s.nb := hj h (by simp [hseq])
    exact ⟨hmem, hlen, hnb, fun _ _ => by simp only; omega, hdone⟩
  | format => exact ⟨hmem, hlen, hnb, nofun, fun _ => rfl⟩

theorem State.resetBlock_inv (s : State) : s.resetBlock.Inv := by
  have hnb : 1 ≤ s.cfg.nbMax := Nat.le_add_left 1 _
  exact ⟨⟨Memory.wf_nil, Memory.within_nil _, Memory.wf_nil, Memory.within_nil _⟩, Nat.zero_le _, ⟨le_rfl, hnb⟩,
    nofun, nofun⟩

theorem TurnEffect.keeps_inv {s t : State} {turn : Turn} (h : TurnEffect s turn t) (hs : s.Inv) : t.Inv := by
  cases h with
  | engine h => exact h.keeps_inv hs
  | command w h => exact h.keeps_inv hs
  | ignored | defined | draw => exact hs
  | reset => exact s.resetBlock_inv

/-- Settles O40: a step is one effect of a turn, in the state with that turn taken off, and each effect keeps the
invariant. -/
theorem everyStepKeepsTheInvariant : Obligations.EveryStepKeepsTheInvariant := by
  intro s t hs h
  exact (step_effect h).keeps_inv hs

end Sys2Proof.Machine

/-! What an accepted PUSH makes of the message (R214), and the parameters that no step writes (R32, R35). -/

namespace Sys2Proof.Machine

/-- A byte written just past n bytes is read as the last of n + 1, and the others are as before. -/
theorem Memory.readBytes_write_end {m : Memory} (h : m.wf) (n : Nat) (b : Byte) :
    (m.write n b).readBytes 0 (n + 1) = m.readBytes 0 n ++ [b] := by
  have hbefore : (m.write n b).readBytes 0 n = m.readBytes 0 n :=
    Memory.readBytes_congr fun q hq => Memory.read_write_other h b (by omega)
  rw [Memory.readBytes_succ, hbefore, Nat.zero_add, Memory.read_write_same h]

/-- Settles O10: below the capacity and not BUSY the effect of PUSH is to write the byte just past the message. -/
theorem pushExtendsTheMessage : Obligations.PushExtendsTheMessage := by
  intro s t data hwf hbusy hl h
  cases exec_effect h with
  | push =>
    simp only [State.message]
    rw [toNat_succ_of_lt hl, Memory.readBytes_write_end hwf]
  | full _ _ hfull => exact absurd (congrArg BitVec.toNat hfull) hl.ne
  | busyPush _ hb => exact absurd hb hbusy

theorem CommandEffect.cfg_eq {s t : State} {i : Instr} (h : CommandEffect s i t) : t.cfg = s.cfg := by
  cases h <;> rfl

theorem EngineEffect.cfg_eq {s t : State} (h : EngineEffect s t) : t.cfg = s.cfg := by
  cases h <;> rfl

theorem TurnEffect.cfg_eq {s t : State} {turn : Turn} (h : TurnEffect s turn t) : t.cfg = s.cfg := by
  cases h with
  | engine h => exact h.cfg_eq
  | command w h => exact h.cfg_eq
  | ignored | defined | draw | reset => rfl

theorem step_cfg_eq {s t : State} (h : step s = .next t) : t.cfg = s.cfg := (step_effect h).cfg_eq

/-- Settles O42: every effect of a turn, reset included, leaves all the parameters as they are. -/
theorem noStepChangesTheParameters : Obligations.NoStepChangesTheParameters := by
  intro s t h
  rw [step_cfg_eq h]
  exact ⟨rfl, rfl, rfl⟩

end Sys2Proof.Machine

/-! Who writes each item of the state (R37), and with it the error bits (R33) and RES_VALID (R38). -/

namespace Sys2Proof.Machine

/-- The next turn writes a PUSH that finds MSG_LEN at the capacity, not BUSY (R214, R241). -/
abbrev State.nextOverflows (s : State) : Prop :=
  s.phase ≠ .busy ∧ s.msgLen = s.cfg.maxMsgBytes ∧ s.nextWrites 2

/-- The next turn writes a command that the BUSY test of R211 refuses. -/
abbrev State.nextIsRefused (s : State) : Prop :=
  s.phase = .busy ∧ (s.nextWrites 1 ∨ s.nextWrites 2 ∨ s.nextWrites 3)

/-- The next turn writes a reserved command (R216). -/
abbrev State.nextIsReserved (s : State) : Prop := ∃ opc, 4 ≤ opc ∧ s.nextWrites opc

/-- The rows of R37 for a step from `s` to `t` that is no reset: an item that differs was written by an operation that
the table names for it. -/
structure ItemWriters (s t : State) : Prop where
  msg : t.msg ≠ s.msg → s.nextPushes
  msgLen : t.msgLen ≠ s.msgLen → s.nextPushes ∨ s.nextClears
  padding : t.lenBits ≠ s.lenBits ∨ t.pad ≠ s.pad ∨ t.nb ≠ s.nb → s.nextRuns .pad
  acc : t.acc ≠ s.acc → s.nextRuns .pad ∨ s.nextRuns .fold
  work : t.work ≠ s.work → s.nextRuns .load ∨ s.nextRuns .round
  x : t.x ≠ s.x → s.nextRuns .load
  phase : t.phase ≠ s.phase →
    (t.phase = .idle ∧ (s.nextPushes ∨ s.nextClears)) ∨ (t.phase = .busy ∧ s.nextHashes) ∨
    (t.phase = .done ∧ s.nextRuns .format)
  seq : t.seq ≠ s.seq →
    s.nextHashes ∨ s.nextRuns .pad ∨ s.nextRuns .load ∨ s.nextRuns .round ∨ s.nextRuns .fold
  j : t.j ≠ s.j → s.nextRuns .pad ∨ s.nextRuns .fold
  i : t.i ≠ s.i → s.nextRuns .load ∨ s.nextRuns .round
  result : t.digest ≠ s.digest ∨ t.hexc ≠ s.hexc ∨ t.resValid ≠ s.resValid → s.nextRuns .format
  errCmd : t.errCmd ≠ s.errCmd →
    (t.errCmd = true ∧ s.nextIsReserved) ∨ (t.errCmd = false ∧ s.nextClears)
  errBusy : t.errBusy ≠ s.errBusy →
    (t.errBusy = true ∧ s.nextIsRefused) ∨ (t.errBusy = false ∧ s.nextClears)
  errFull : t.errFull ≠ s.errFull →
    (t.errFull = true ∧ s.nextOverflows) ∨ (t.errFull = false ∧ s.nextClears)

theorem CommandEffect.itemWriters {s t : State} {w : Word} (hturn : s.nextTurn = Turn.command w)
    (h : CommandEffect { s with turns := s.turns.tail } (decode w) t) : ItemWriters s t := by
  obtain ⟨-, hclear, hpush, hhash, hreserved⟩ := opcOf_of_decode w
  generalize decode w = i at h hclear hpush hhash hreserved
  cases h with
  | nop => constructor <;> simp
  | clear h =>
    have hc : s.nextClears := ⟨⟨w, hturn, hclear rfl⟩, h⟩
    constructor <;> simp [eq_true hc]
  | push data h _ hl =>
    have hp : s.nextPushes := ⟨⟨w, hturn, (hpush data rfl).1⟩, h, hl⟩
    constructor <;> simp [eq_true hp]
  | hash h =>
    have hh : s.nextHashes := ⟨⟨w, hturn, hhash rfl⟩, h⟩
    constructor <;> simp [eq_true hh]
  | full data h hm =>
    have hw : s.nextOverflows := ⟨h, hm, w, hturn, (hpush data rfl).1⟩
    constructor <;> simp [eq_true hw]
  | busyClear h =>
    have hb : s.nextIsRefused := ⟨h, .inl ⟨w, hturn, hclear rfl⟩⟩
    constructor <;> simp [eq_true hb]
  | busyPush data h =>
    have hb : s.nextIsRefused := ⟨h, .inr (.inl ⟨w, hturn, (hpush data rfl).1⟩)⟩
    constructor <;> simp [eq_true hb]
  | busyHash h =>
    have hb : s.nextIsRefused := ⟨h, .inr (.inr ⟨w, hturn, hhash rfl⟩)⟩
    constructor <;> simp [eq_true hb]
  | reserved opc =>
    have hw : s.nextIsReserved := ⟨(opcOf w).toNat, (hreserved opc rfl).1, w, hturn, rfl⟩
    constructor <;> simp [eq_true hw]

theorem EngineEffect.itemWriters {s t : State} (hturn : s.nextTurn = .engine)
    (h : EngineEffect { s with turns := s.turns.tail } t) : ItemWriters s t := by
  cases h with
  | rest => constructor <;> simp
  | pad h hseq =>
    have hr : s.nextRuns .pad := ⟨hturn, h, hseq⟩
    constructor <;> simp [eq_true hr]
  | load h hseq =>
    have hr : s.nextRuns .load := ⟨hturn, h, hseq⟩
    constructor <;> simp [eq_true hr]
  | round h hseq | lastRound h hseq =>
    have hr : s.nextRuns .round := ⟨hturn, h, hseq⟩
    constructor <;> simp [eq_true hr]
  | fold h hseq | lastFold h hseq =>
    have hr : s.nextRuns .fold := ⟨hturn, h, hseq⟩
    constructor <;> simp [eq_true hr]
  | format h hseq =>
    have hr : s.nextRuns .format := ⟨hturn, h, hseq⟩
    constructor <;> simp [eq_true hr]

theorem step_itemWriters {s t : State} (h : step s = .next t) (hr : s.nextTurn ≠ .reset) : ItemWriters s t := by
  have heff := step_effect h
  generalize hturn : s.nextTurn = turn at heff hr
  cases heff with
  | engine h => exact h.itemWriters hturn
  | command w h => exact h.itemWriters hturn
  | ignored | defined | draw => constructor <;> simp
  | reset => exact absurd rfl hr

/-- Settles O43: a step that is no reset is an effect of a command, of the engine or of an access that writes no item,
and each writes what R37 says. -/
theorem writersOfEachItem : Obligations.WritersOfEachItem := by
  intro s t h hr
  have hw := step_itemWriters h hr
  exact ⟨hw.msg, hw.msgLen, hw.padding, hw.acc, hw.work, hw.x, hw.phase, hw.seq, hw.j, hw.i, hw.result, hw.errCmd,
    hw.errBusy, hw.errFull⟩

/-- The reset input leaves the state of R261, with the parameters and the surroundings as they were (R260). -/
theorem eq_resetBlock_of_reset {s t : State} (h : step s = .next t) (hr : s.nextTurn = .reset) :
    t = { s with turns := s.turns.tail }.resetBlock := by
  have heff := step_effect h
  rw [hr] at heff
  cases heff
  rfl

/-- Settles O21: the writers of the error bits (R37), and that reset leaves each of them 0. -/
theorem onlyRaiseSetsAndOnlyClearOrResetClears : Obligations.OnlyRaiseSetsAndOnlyClearOrResetClears := by
  intro s t h
  by_cases hr : s.nextTurn = .reset
  · rw [eq_resetBlock_of_reset h hr]
    simp [hr]
  have hw := step_itemWriters h hr
  refine ⟨fun h0 h1 => ?_, fun h0 h1 => ?_, fun h0 h1 => ?_, fun hclr => .inr ?_⟩
  · obtain ⟨-, opc, hopc, w, hturn, rfl⟩ | ⟨h1', -⟩ := hw.errCmd (by simp [h0, h1])
    · exact ⟨w, hturn, hopc⟩
    · simp [h1] at h1'
  · obtain ⟨-, hb, hcodes⟩ | ⟨h1', -⟩ := hw.errBusy (by simp [h0, h1])
    · obtain ⟨w, hturn, hopc⟩ | ⟨w, hturn, hopc⟩ | ⟨w, hturn, hopc⟩ := hcodes <;>
        exact ⟨w, hturn, by omega, by omega, hb⟩
    · simp [h1] at h1'
  · obtain ⟨-, hb, hm, w, hturn, hopc⟩ | ⟨h1', -⟩ := hw.errFull (by simp [h0, h1])
    · exact ⟨w, hturn, hopc, hb, hm⟩
    · simp [h1] at h1'
  · have hc : s.nextClears := by
      obtain ⟨h0, h1⟩ | ⟨h0, h1⟩ | ⟨h0, h1⟩ := hclr
      · simpa [h0, h1] using hw.errCmd
      · simpa [h0, h1] using hw.errBusy
      · simpa [h0, h1] using hw.errFull
    obtain ⟨⟨w, hturn, hopc⟩, hb⟩ := hc
    exact ⟨w, hturn, hopc, hb⟩

theorem EngineEffect.resValid_of_format {s t : State} (h : EngineEffect s t) (hb : s.phase = .busy)
    (hf : s.seq = .format) : t.resValid = true := by
  cases h with
  | format => rfl
  | rest h => exact absurd hb h
  | pad _ hseq | load _ hseq | round _ hseq | lastRound _ hseq | fold _ hseq | lastFold _ hseq =>
    exact nomatch hf.symm.trans hseq

theorem resValid_of_nextRuns_format {s t : State} (h : step s = .next t) (hr : s.nextRuns .format) :
    t.resValid = true := by
  obtain ⟨hturn, hb, hf⟩ := hr
  have heff := step_effect h
  rw [hturn] at heff
  cases heff with
  | engine h => exact h.resValid_of_format hb hf

/-- Settles O44: of the steps short of reset FORMAT alone writes RES_VALID, which it sets, and FORMAT alone leads to
DONE. -/
theorem resultValidOnlyByFormat : Obligations.ResultValidOnlyByFormat := by
  refine ⟨fun s t h => ⟨fun h0 h1 => ?_, fun h0 h1 => ?_⟩, fun s t hs h hdone => ?_⟩
  · have hr : s.nextTurn ≠ .reset := fun hr => by simp [eq_resetBlock_of_reset h hr] at h1
    exact (step_itemWriters h hr).result (.inr (.inr (by simp [h0, h1])))
  · by_contra hr
    have hf : s.nextRuns .format := (step_itemWriters h hr).result (.inr (.inr (by simp [h0, h1])))
    simp [resValid_of_nextRuns_format h hf] at h1
  · by_contra hv
    have hr : s.nextTurn ≠ .reset := fun hr => by simp [eq_resetBlock_of_reset h hr] at hdone
    have hnot : ¬s.nextRuns .format := fun hf => hv (resValid_of_nextRuns_format h hf)
    have hw := step_itemWriters h hr
    have hphase : t.phase = s.phase := by
      by_contra hne
      obtain ⟨hi, -⟩ | ⟨hb, -⟩ | ⟨-, hf⟩ := hw.phase hne
      · exact nomatch hi.symm.trans hdone
      · exact nomatch hb.symm.trans hdone
      · exact hnot hf
    have hres : t.resValid = s.resValid := by
      by_contra hne
      exact hnot (hw.result (.inr (.inr hne)))
    exact hv (hres.trans (hs (hphase.symm.trans hdone)))

end Sys2Proof.Machine

/-! The host's reads (R217, R219): no side effect (R59), and the hex string in the bytes of HEX0 to HEX7 (R56). -/

namespace Sys2Proof.Machine

/-- The registers whose reads R219 governs, by number. -/
theorem HostReg.isResult_ofNum {n : RegNum} :
    (HostReg.ofNum n).isResult = true ↔ 4 ≤ n.toNat ∧ n.toNat ≤ 19 := by
  unfold HostReg.ofNum
  split_ifs <;> simp [HostReg.isResult] <;> omega

theorem State.resultDefined_iff {s : State} : s.resultDefined = true ↔ s.phase ≠ .busy ∧ s.resValid = true := by
  simp [State.resultDefined]

/-- No register shows the pending turns or the record of reads. -/
theorem State.regValue_surroundings (s : State) (turns : List Turn) (reads : List ReadResult) (reg : HostReg) :
    State.regValue { s with turns := turns, reads := reads } reg = s.regValue reg := by
  cases reg <;> rfl

theorem step_of_turn {s : State} {turn : Turn} {rest : List Turn} (h : s.turns = turn :: rest) :
    step s = takeTurn turn { s with turns := rest } := by
  simp only [step, h]

theorem step_read {s : State} {n : RegNum} {rest : List Turn} (h : s.turns = .host (.read n) :: rest) :
    step s = .next (State.afterRead n { s with turns := rest }) := by
  rw [step_of_turn h, takeTurn_read]

theorem State.afterRead_of_defined {s : State} {n : RegNum}
    (h : (HostReg.ofNum n).isResult = true → s.resultDefined = true) :
    s.afterRead n = { s with reads := ⟨n, s.regValue (HostReg.ofNum n)⟩ :: s.reads } := by
  have hd : ¬((HostReg.ofNum n).isResult = true ∧ ¬s.resultDefined = true) := fun ⟨hr, hv⟩ => hv (h hr)
  simp only [State.afterRead, State.shown, if_neg hd]

theorem step_read_of_defined {s : State} {n : RegNum} {rest : List Turn} {v : Word}
    (h : s.turns = .host (.read n) :: rest) (hd : (HostReg.ofNum n).isResult = true → s.resultDefined = true)
    (hv : s.regValue (HostReg.ofNum n) = v) :
    step s = .next { s with turns := rest, reads := ⟨n, v⟩ :: s.reads } := by
  have hd' : (HostReg.ofNum n).isResult = true → State.resultDefined { s with turns := rest } = true := hd
  rw [step_read h, State.afterRead_of_defined hd', State.regValue_surroundings s rest s.reads, hv]

theorem run_two {s t u : State} (h : step s = .next t) (h' : step t = .next u) : run 2 s = .next u :=
  (run_succ h 1).trans (run_succ h' 0)

/-- Settles O19: a read writes the record and the count of draws only, which no defined register value depends on. -/
theorem readsAreIdempotent : Obligations.ReadsAreIdempotent := by
  intro s n rest h
  refine ⟨⟨_, _, step_read h⟩, fun hn => ⟨s.regValue (HostReg.ofNum n), ?_⟩⟩
  have hd : (HostReg.ofNum n).isResult = true → s.resultDefined = true := fun hr => by
    obtain ⟨hlow, hhigh⟩ := HostReg.isResult_ofNum.mp hr
    exact State.resultDefined_iff.mpr (hn hlow hhigh)
  exact run_two (step_read_of_defined h hd rfl) (step_read_of_defined rfl hd (s.regValue_surroundings _ _ _))

theorem le32Bytes_hexWord (hexc : Vector Byte 32) (n : Fin 8) :
    le32Bytes (hexWord hexc n) = List.ofFn fun t : Fin 4 => hexc[4 * n.val + t.val] := by
  rw [hexWord, le32Bytes_le32]
  rfl

/-- Settles O20: each HEX register holds four consecutive characters, and 8 runs of 4 are the 32 characters. -/
theorem hexRegistersStoreInStringOrder : Obligations.HexRegistersStoreInStringOrder := by
  intro hexc
  calc (List.finRange 8).flatMap (fun n => le32Bytes (hexWord hexc n))
    _ = (List.ofFn fun n : Fin 8 => List.ofFn fun t : Fin 4 => hexc[4 * n.val + t.val]).flatten := by
      simp only [le32Bytes_hexWord, List.flatMap_def, List.ofFn_eq_map]
    _ = List.ofFn fun q : Fin (4 * 8) => hexc[q.val] := (List.ofFn_mul' fun q : Fin (4 * 8) => hexc[q.val]).symm
    _ = hexc.toList := by
      rw [← Vector.toList_ofFn, Vector.ofFn_getElem (xs := hexc)]

end Sys2Proof.Machine

/-! What the host leaves alone: a hash in progress (R65, R242), and a result in DONE (R63). -/

namespace Sys2Proof.Machine

/-- At most an error bit and the host's own record differ between the two states. -/
abbrev SameButHostRecord (s t : State) : Prop :=
  t = { s with errCmd := t.errCmd, errBusy := t.errBusy, reads := t.reads, draws := t.draws }

theorem CommandEffect.sameButHostRecord_of_busy {s t : State} {i : Instr} (h : CommandEffect s i t)
    (hb : s.phase = .busy) : SameButHostRecord s t := by
  cases h with
  | nop | busyClear | busyPush | busyHash | reserved => rfl
  | clear h | push _ h | full _ h | hash h => exact absurd hb h

theorem TurnEffect.sameButHostRecord_of_busy {s t : State} {access : Access} (h : TurnEffect s (.host access) t)
    (hb : s.phase = .busy) : SameButHostRecord s t := by
  cases h with
  | command w h => exact h.sameButHostRecord_of_busy hb
  | ignored | defined | draw => rfl

/-- Settles O46: while BUSY a command is NOP or raises an error, and every other access writes the host's record at
most. -/
theorem hostCannotDisturbABusyHash : Obligations.HostCannotDisturbABusyHash := by
  intro s t access rest hb hturns h
  rw [step_of_turn hturns] at h
  exact (takeTurn_effect h).sameButHostRecord_of_busy hb

theorem not_nextRuns_of_not_busy {s : State} (h : s.phase ≠ .busy) (seq : Seq) : ¬s.nextRuns seq :=
  fun ⟨_, hb, _⟩ => h hb

/-- Only an accepted HASH leads to BUSY (R37). -/
theorem ItemWriters.phase_ne_busy {s t : State} (hw : ItemWriters s t) (hb : s.phase ≠ .busy)
    (hhash : ¬s.nextHashes) : t.phase ≠ .busy := by
  intro ht
  have hne : t.phase ≠ s.phase := fun he => hb (he.symm.trans ht)
  obtain ⟨hi, -⟩ | ⟨-, hh⟩ | ⟨hd, -⟩ := hw.phase hne
  · exact nomatch hi.symm.trans ht
  · exact hhash hh
  · exact nomatch hd.symm.trans ht

/-- Only the engine writes the results (R37), and it rests while not BUSY. -/
theorem ItemWriters.results_eq {s t : State} (hw : ItemWriters s t) (hb : s.phase ≠ .busy) :
    t.acc = s.acc ∧ t.digest = s.digest ∧ t.hexc = s.hexc ∧ t.resValid = s.resValid := by
  have hrest := not_nextRuns_of_not_busy hb
  have hacc := mt hw.acc (not_or.mpr ⟨hrest .pad, hrest .fold⟩)
  have hres := mt hw.result (hrest .format)
  simpa only [not_or, not_not] using And.intro hacc hres

/-- Settles O47: short of reset a HASH alone leads to BUSY, and the engine, which rests, alone writes the results. -/
theorem resultsStayUntilHashOrReset : Obligations.ResultsStayUntilHashOrReset := by
  intro s t hb hv h hr hcmd
  have hw := step_itemWriters h hr
  have hhash : ¬s.nextHashes := fun ⟨⟨w, hturn, hopc⟩, _⟩ => hcmd w hturn hopc
  obtain ⟨hacc, hdigest, hhexc, hres⟩ := hw.results_eq hb
  exact ⟨hw.phase_ne_busy hb hhash, hres.trans hv, hacc, hdigest, hhexc⟩

end Sys2Proof.Machine

/-! The command word (R70 to R76): decode and encode agree, and the ignored bits of R75 reach neither the command nor its
effect. -/

namespace Sys2Proof

open Laws

/-- The encoder writes into OPC and DATA what the decoder reads there. -/
theorem decode_encode {i : Instr} (h : i.wf = true) : decode (encode i) = i := by
  cases i with
  | nop => exact decode_eq_nop (by rw [EncodedFields.nop.1]; rfl)
  | clear => exact decode_eq_clear (by rw [EncodedFields.clear.1]; rfl)
  | push data =>
    obtain ⟨hopc, hdata, -⟩ := EncodedFields.push data
    rw [decode_eq_push (by rw [hopc]; rfl), hdata]
    rfl
  | hash => exact decode_eq_hash (by rw [EncodedFields.hash.1]; rfl)
  | reserved opc =>
    have hopc : opcOf (encode (.reserved opc)) = opc := (EncodedFields.reserved opc).1
    have hrange : 4 ≤ opc.toNat := of_decide_eq_true h
    rw [decode_eq_reserved (by rwa [hopc]), hopc]

theorem encode_rsv (i : Instr) : (encode i).extractLsb' 8 16 = 0 := by
  cases i <;> exact commandWord_rsv _ _

/-- Every command that the decoder answers is a command of the block (R76). -/
theorem decode_wf (w : Word) : (decode w).wf = true := by
  obtain ⟨-, -, -, -, hreserved⟩ := opcOf_of_decode w
  cases h : decode w with
  | nop | clear | push | hash => rfl
  | reserved opc =>
    obtain ⟨hrange, rfl⟩ := hreserved opc h
    exact decide_eq_true hrange

/-- Settles O3: the round trip of a well-formed command, which the command of any word is. -/
theorem decodeOfEncodeIsTheCommand : Obligations.DecodeOfEncodeIsTheCommand :=
  ⟨fun i h => ⟨decode_encode h, encode_rsv i⟩, fun w => ⟨decode_wf w, decode_encode (decode_wf w)⟩⟩

/-- Settles O1: the rows of R73, whose operation codes are 0, 1, 2, 3 and the rest. -/
theorem opcodeMapOfEveryWord : Obligations.OpcodeMapOfEveryWord := fun _ =>
  ⟨decode_eq_nop, decode_eq_clear, decode_eq_push, decode_eq_hash, decode_eq_reserved⟩

/-- The decoder looks at OPC, and at DATA where OPC is that of PUSH (R73, R75). -/
theorem decode_congr {w v : Word} (hopc : opcOf w = opcOf v) (hdata : opcOf w = 2 → dataOf w = dataOf v) :
    decode w = decode v := by
  obtain ⟨hnop, hclear, hpush, hhash, hreserved⟩ := opcOf_of_decode w
  cases h : decode w with
  | nop => exact (decode_eq_nop (hopc ▸ hnop h)).symm
  | clear => exact (decode_eq_clear (hopc ▸ hclear h)).symm
  | push data =>
    obtain ⟨hcode, rfl⟩ := hpush data h
    rw [hdata (BitVec.eq_of_toNat_eq hcode), decode_eq_push (hopc ▸ hcode)]
  | hash => exact (decode_eq_hash (hopc ▸ hhash h)).symm
  | reserved opc =>
    obtain ⟨hrange, rfl⟩ := hreserved opc h
    rw [decode_eq_reserved (hopc ▸ hrange), hopc]

end Sys2Proof

namespace Sys2Proof.Machine

theorem takeTurn_command (w : Word) (s : State) : takeTurn (Turn.command w) s = exec (decode w) s := rfl

theorem step_command {s : State} {w : Word} {rest : List Turn} (h : s.turns = Turn.command w :: rest) :
    step s = exec (decode w) { s with turns := rest } := by
  rw [step_of_turn h, takeTurn_command]

/-- Settles O2: the words decode to one command, and a step that writes a word performs the command it decodes to. -/
theorem ignoredBitsChangeNothing : Obligations.IgnoredBitsChangeNothing := by
  intro w v s rest hopc hdata
  have hsame : decode w = decode v := decode_congr hopc hdata
  refine ⟨hsame, ?_⟩
  rw [step_command rfl, step_command rfl, hsame]

/-- Settles O4: the decoder evaluated at the five words of R81. -/
theorem workedCommandWordsDecode : Obligations.WorkedCommandWordsDecode := by
  unfold Obligations.WorkedCommandWordsDecode
  decide

end Sys2Proof.Machine

/-! The pseudo-instructions of R79: the accesses each makes, and WAITDONE wherever it stands in a program. -/

namespace Sys2Proof.Machine

/-- The operand of PUSH takes none of the bits of its operation code, so joining them is adding them (R78). -/
theorem pushWord_eq_add (data : Byte) : (0x02000000 : Word) ||| data.setWidth 32 = 0x02000000 + data.setWidth 32 := by
  refine (BitVec.add_eq_or_of_and_eq_zero _ _ (BitVec.eq_of_getLsbD_eq fun k hk => ?_)).symm
  by_cases h : k < 8
  · have hcode : ∀ k < 8, (0x02000000 : Word).getLsbD k = false := by decide
    rw [BitVec.getLsbD_and, hcode k h, Bool.false_and, BitVec.getLsbD_zero]
  · have hdata : data.getLsbD k = false := BitVec.getLsbD_of_ge _ _ (by omega)
    simp [hdata]

theorem turnsOf_append (p q : List Stmt) : turnsOf (p ++ q) = turnsOf p ++ turnsOf q := List.filterMap_append

theorem turnsOf_asmPushs (bytes : List Byte) :
    turnsOf (asmPushs bytes) = bytes.map fun b => Turn.command (0x02000000 + b.setWidth 32) := by
  induction bytes with
  | nil => rfl
  | cons b bytes ih =>
    calc turnsOf (asmPushs (b :: bytes))
      _ = Turn.command (0x02000000 ||| b.setWidth 32) :: turnsOf (asmPushs bytes) := rfl
      _ = _ := by rw [pushWord_eq_add, ih, List.map_cons]

theorem turnsOf_asmHashs (bytes : List Byte) :
    turnsOf (asmHashs bytes) =
      Turn.command 0x01000000 :: (bytes.map fun b => Turn.command (0x02000000 + b.setWidth 32)) ++
        [Turn.command 0x03000000] := by
  rw [asmHashs, turnsOf_append, turnsOf_append, turnsOf_asmPushs]
  rfl

theorem HostReg.toNum_ofNum {n : RegNum} : n.toNat < 20 → (HostReg.ofNum n).toNum = n := by
  decide +revert

/-- Bits [1:0] of STATUS are PHASE (R32). -/
theorem State.status_and_three (s : State) : s.status &&& 3#32 = BitVec.ofNat 32 s.phase.code := by
  have hphase : s.phase.code < 4 := by cases s.phase <;> decide
  have hmask : (3#32).toNat = 2 ^ 2 - 1 := rfl
  apply BitVec.eq_of_toNat_eq
  rw [BitVec.toNat_and, hmask, Nat.and_two_pow_sub_one_eq_mod, State.status, BitVec.toNat_ofNat, BitVec.toNat_ofNat]
  omega

theorem State.status_shows_busy (s : State) : s.status &&& 3#32 = 1#32 ↔ s.phase = .busy := by
  rw [s.status_and_three]
  cases s.phase <;> decide

/-- The four statements of WAITDONE, where the host stands at the first. -/
theorem HostProgram.holdsAt_waitDone {p : HostProgram} {v : HostVar} {w : Nat} (h : p.holdsAt w (asmWaitDone v w)) :
    p.pc = w ∧ p.code[w]? = some (.rd v (HostReg.toNum .status)) ∧ p.code[w + 1]? = some (.and v v 3) ∧
      p.code[w + 2]? = some (.bne v 1 (w + 4)) ∧ p.code[w + 3]? = some (.b w) := by
  obtain ⟨hpc, hcode⟩ := h
  have hcode : ∀ k < 4, p.code[w + k]? = (asmWaitDone v w)[k]? := hcode
  exact ⟨hpc, hcode 0 (by decide), hcode 1 (by decide), hcode 2 (by decide), hcode 3 (by decide)⟩

/-- Three statements of WAITDONE: the host has the masked STATUS, and stands past the loop or at its branch back. -/
theorem HostedSystem.run_waitDone {sys : HostedSystem} {v : HostVar} {w : Nat}
    (h : sys.host.holdsAt w (asmWaitDone v w)) :
    HostedSystem.run [.host, .host, .host] sys = .next
      { host := (((sys.host.goto (w + 1)).set v sys.block.status).goto (w + 2)
          |>.set v (sys.block.status &&& 3)).goto (if sys.block.phase = .busy then w + 3 else w + 4)
        block := { sys.block with reads := ⟨1, sys.block.status⟩ :: sys.block.reads } } := by
  obtain ⟨rfl, hrd, hand, hbne, -⟩ := HostProgram.holdsAt_waitDone h
  have hread : sys.block.afterRead (HostReg.toNum .status) =
      { sys.block with reads := ⟨1, sys.block.status⟩ :: sys.block.reads } := State.afterRead_of_defined nofun
  rw [run_cons (step_rd hrd), hread, run_cons (step_and hand), run_cons (step_bne hbne)]
  have hshown : sys.block.shown (HostReg.toNum .status) = sys.block.status := rfl
  simp [HostedSystem.run, HostProgram.get_set, hshown, State.status_shows_busy, Nat.add_assoc]

/-- Settles O56: the accesses read off the expansions, and the three statements of WAITDONE, the fourth of which branches
back. -/
theorem pseudoInstructionExpansions : Obligations.PseudoInstructionExpansions := by
  refine ⟨turnsOf_asmHashs, fun _ => rfl, fun _ => rfl, fun _ => HostReg.toNum_ofNum, fun sys v w h => ?_⟩
  refine ⟨_, HostedSystem.run_waitDone h, rfl, ?_, fun u hu => ?_, rfl, fun hb => if_neg hb, fun hb => ⟨if_pos hb, ?_⟩⟩
  · simp [HostProgram.get_set]
  · simp [HostProgram.get_set, hu]
  · obtain ⟨-, -, -, -, hback⟩ := HostProgram.holdsAt_waitDone h
    rw [HostedSystem.run_cons (HostedSystem.step_b (label := w) (by simpa [hb] using hback))]
    rfl

end Sys2Proof.Machine

/-! What a row of result reads leaves in the host's variables (R79, R217, R219): RDHEX and RDSTATE are such rows. -/

namespace Sys2Proof.Machine

theorem HostReg.ofNum_toNum (reg : HostReg) : HostReg.ofNum reg.toNum = reg := by
  cases reg with
  | cmd | status | msgLen | capacity | reserved => rfl
  | state k | digest k | hex k => decide +revert

/-- No register shows the record of reads or the count of draws. -/
theorem State.regValue_record (s : State) (reads : List ReadResult) (draws : Nat) (reg : HostReg) :
    State.regValue { s with reads := reads, draws := draws } reg = s.regValue reg := by
  cases reg <;> rfl

/-- What the read of a result register shows when `k` result reads went before it: the register where R219 makes it
defined, and the draw of that number otherwise. -/
def State.resultRead (s : State) (reg : HostReg) (k : Nat) : Word :=
  if s.resultDefined then s.regValue reg else Config.unspecified (s.draws + k)

/-- The block after `k` reads of result registers: the record, and a draw for each read that R219 leaves unspecified. -/
def State.afterResultReads (s : State) (reads : List ReadResult) (k : Nat) : State :=
  { s with reads := reads, draws := if s.resultDefined then s.draws else s.draws + k }

theorem State.shown_afterResultReads (s : State) (reads : List ReadResult) (k : Nat) {reg : HostReg}
    (hreg : reg.isResult = true) : (s.afterResultReads reads k).shown reg.toNum = s.resultRead reg k := by
  have hd : (s.afterResultReads reads k).resultDefined = s.resultDefined := rfl
  have hv : (s.afterResultReads reads k).regValue reg = s.regValue reg := s.regValue_record reads _ reg
  rw [State.shown, HostReg.ofNum_toNum, hd, hv, State.resultRead]
  by_cases h : s.resultDefined = true <;> simp [h, hreg, State.afterResultReads]

theorem State.afterRead_afterResultReads (s : State) (reads : List ReadResult) (k : Nat) {reg : HostReg}
    (hreg : reg.isResult = true) :
    (s.afterResultReads reads k).afterRead reg.toNum =
      s.afterResultReads (⟨reg.toNum, s.resultRead reg k⟩ :: reads) (k + 1) := by
  have hd : (s.afterResultReads reads k).resultDefined = s.resultDefined := rfl
  rw [State.afterRead, s.shown_afterResultReads reads k hreg, HostReg.ofNum_toNum, hd]
  by_cases h : s.resultDefined = true <;> simp [h, hreg, State.afterResultReads, Nat.add_assoc]

theorem HostedSystem.run_append {before : List Agent} {sys sys' : HostedSystem}
    (h : HostedSystem.run before sys = .next sys') (rest : List Agent) :
    HostedSystem.run (before ++ rest) sys = HostedSystem.run rest sys' := by
  induction before generalizing sys with
  | nil =>
    cases h
    rfl
  | cons who before ih =>
    rw [HostedSystem.run] at h
    split at h
    · rw [List.cons_append, HostedSystem.run_cons ‹_›, ih h]
    · cases h
    · cases h

/-- The statements that read the registers `reg` to the variables `v`, in order. -/
def asmReads {N : Nat} (v : Fin N → HostVar) (reg : Fin N → HostReg) : List Stmt :=
  (List.finRange N).map fun n => .rd (v n) (reg n).toNum

theorem asmRdHex_eq_asmReads (v : Fin 8 → HostVar) : asmRdHex v = asmReads v .hex := rfl

theorem asmRdState_eq_asmReads (v : Fin 4 → HostVar) : asmRdState v = asmReads v .state := rfl

/-- `sys'` is `sys` after the first `k` reads of a row of result reads at index `w`. -/
structure ResultReadsDone {N : Nat} (v : Fin N → HostVar) (reg : Fin N → HostReg) (w : Nat) (sys : HostedSystem)
    (k : Nat) (sys' : HostedSystem) : Prop where
  pc : sys'.host.pc = w + k
  code : sys'.host.code = sys.host.code
  block : ∃ reads, sys'.block = sys.block.afterResultReads reads k
  others : ∀ u, (∀ n, n.val < k → v n ≠ u) → sys'.host.get u = sys.host.get u
  named : ∀ n, n.val < k → (∀ m, n < m → m.val < k → v m ≠ v n) →
    sys'.host.get (v n) = sys.block.resultRead (reg n) n.val

section ResultReads

variable {N : Nat} {v : Fin N → HostVar} {reg : Fin N → HostReg} {w : Nat} {sys : HostedSystem}

theorem resultReadsDone_zero (hpc : sys.host.pc = w) : ResultReadsDone v reg w sys 0 sys where
  pc := hpc
  code := rfl
  block := ⟨sys.block.reads, by simp [State.afterResultReads]⟩
  others _ _ := rfl
  named _ hn := absurd hn (Nat.not_lt_zero _)

/-- One more read: its variable takes the value shown, and every other one keeps what it had. -/
theorem ResultReadsDone.step {sys' : HostedSystem} {n : Fin N} (hdone : ResultReadsDone v reg w sys n.val sys')
    (hreg : (reg n).isResult = true) :
    ResultReadsDone v reg w sys (n.val + 1)
      { host := (sys'.host.goto (sys'.host.pc + 1)).set (v n) (sys'.block.shown (reg n).toNum)
        block := sys'.block.afterRead (reg n).toNum } := by
  obtain ⟨hpc, hcode, ⟨reads, hblock⟩, hothers, hnamed⟩ := hdone
  rw [hblock, State.shown_afterResultReads _ _ _ hreg, State.afterRead_afterResultReads _ _ _ hreg]
  constructor
  case pc => simp [hpc, Nat.add_assoc]
  case code => exact hcode
  case block => exact ⟨_, rfl⟩
  case others =>
    intro u hu
    have hne : u ≠ v n := (hu n (Nat.lt_succ_self _)).symm
    rw [HostProgram.get_set, if_neg hne]
    exact hothers u fun m hm => hu m (Nat.lt_succ_of_lt hm)
  case named =>
    intro m hm hlast
    rw [HostProgram.get_set]
    obtain rfl | hlt := Fin.eq_or_lt_of_le (Nat.le_of_lt_succ hm)
    · rw [if_pos rfl]
    · rw [if_neg (hlast n hlt (Nat.lt_succ_self _)).symm]
      exact hnamed m hlt fun q hq hqn => hlast q hq (Nat.lt_succ_of_lt hqn)

theorem run_resultReads (hreg : ∀ n, (reg n).isResult = true) (hheld : sys.host.holdsAt w (asmReads v reg)) {k : Nat}
    (hk : k ≤ N) :
    ∃ sys', HostedSystem.run (List.replicate k .host) sys = .next sys' ∧ ResultReadsDone v reg w sys k sys' := by
  obtain ⟨hpc, hcode⟩ := hheld
  induction k with
  | zero => exact ⟨sys, rfl, resultReadsDone_zero hpc⟩
  | succ k ih =>
    obtain ⟨sys', hrun, hdone⟩ := ih (Nat.le_of_succ_le hk)
    have hhere : sys'.host.code[sys'.host.pc]? = some (.rd (v ⟨k, hk⟩) (reg ⟨k, hk⟩).toNum) := by
      rw [hdone.pc, hdone.code, hcode k (by simpa [asmReads] using hk)]
      simp [asmReads, Nat.lt_of_succ_le hk]
    refine ⟨_, ?_, ResultReadsDone.step (n := ⟨k, hk⟩) hdone (hreg _)⟩
    rw [List.replicate_succ', HostedSystem.run_append hrun, HostedSystem.run_cons (HostedSystem.step_rd hhere)]
    rfl

/-- A whole row of result reads, in the terms of O58. -/
theorem asmReads_spec {value : Fin N → Word} (hreg : ∀ n, (reg n).isResult = true)
    (hvalue : ∀ n, sys.block.regValue (reg n) = value n) (hheld : sys.host.holdsAt w (asmReads v reg)) :
    ∃ sys' : HostedSystem, HostedSystem.run (List.replicate N .host) sys = .next sys' ∧
      sys'.host.pc = w + N ∧ sys'.host.code = sys.host.code ∧
      sys'.block = { sys.block with reads := sys'.block.reads, draws := sys'.block.draws } ∧
      (∀ u, (∀ n, v n ≠ u) → sys'.host.get u = sys.host.get u) ∧
      (∀ n, (∀ m, n < m → v m ≠ v n) → sys'.host.get (v n) =
        if sys.block.phase ≠ .busy ∧ sys.block.resValid = true then value n
        else Config.unspecified (sys.block.draws + n.val)) := by
  obtain ⟨sys', hrun, hpc, hcode, ⟨reads, hblock⟩, hothers, hnamed⟩ := run_resultReads hreg hheld le_rfl
  refine ⟨sys', hrun, hpc, hcode, by rw [hblock]; rfl, fun u hu => hothers u fun n _ => hu n, fun n hlast => ?_⟩
  rw [hnamed n n.isLt fun m hm _ => hlast m hm, State.resultRead, hvalue]
  simp only [State.resultDefined_iff]

end ResultReads

theorem quadWord_eq_getElem (q : Quad) (k : Fin 4) : quadWord q k = [q.a, q.b, q.c, q.d][k] := by
  fin_cases k <;> rfl

/-- Settles O58: RDHEX and RDSTATE are rows of result reads, of the registers HEX0 to HEX7 and STATE_A to STATE_D. -/
theorem rdHexAndRdStateReadTheResult : Obligations.RdHexAndRdStateReadTheResult := by
  refine ⟨fun sys v w hheld => ?_, fun sys v w hheld => ?_⟩
  · rw [asmRdHex_eq_asmReads] at hheld
    exact asmReads_spec (reg := .hex) (fun _ => rfl) (fun _ => rfl) hheld
  · rw [asmRdState_eq_asmReads] at hheld
    exact asmReads_spec (reg := .state) (fun _ => rfl) (quadWord_eq_getElem sys.block.acc) hheld

end Sys2Proof.Machine

/-! The length of the padded message (R104, R105): `Z` brings it to the least whole number of blocks above L + 8
bytes. -/

namespace Sys2Proof.Machine

/-- Settles O23: the length of the padded message is that of its blocks, and their number grows with the message's
length, so that it stays within NB_MAX. -/
theorem paddedLengthIsWholeBlocks : Obligations.PaddedLengthIsWholeBlocks := by
  intro m
  have hblocks : (padBytes m).length = 64 * blockCount (padBytes m) := padWith_length_eq_blocks m _
  have hcount : blockCount (padBytes m) = (m.length + 8) / 64 + 1 := blockCount_padWith m _
  refine ⟨hblocks, hcount, by omega, fun cfg hcap => ⟨by omega, ?_⟩⟩
  exact blockCount_padWith_le_nbMax hcap _

/-- What the padding adds (R105): the marker byte, Z zero bytes and the eight bytes of the length field. -/
theorem padBytes_length_sub (m : List Byte) : (padBytes m).length - m.length = zeroCount m.length + 9 := by
  rw [padBytes, padWith_length]
  omega

/-- Settles O24: the padding adds Z + 9 bytes, and Z, which is below 64, is 0 or 63 at the two lengths named. -/
theorem paddingAddsSeventyTwoToFiveHundredSeventySixBits :
    Obligations.PaddingAddsSeventyTwoToFiveHundredSeventySixBits := by
  intro m
  obtain ⟨hmod, hlt⟩ := zeroCount_spec m.length
  rw [padBytes_length_sub]
  exact ⟨by omega, by omega, by omega, by omega⟩

end Sys2Proof.Machine

/-! The padding at bit level (R101): step 3 appends the rest of the marker byte and the bits of the Z zero bytes. -/

namespace Sys2Proof.Machine

theorem bitsOf_append (bs cs : List Byte) : bitsOf (bs ++ cs) = bitsOf bs ++ bitsOf cs :=
  List.flatMap_append

theorem bitsOf_zeros (n : Nat) : bitsOf (zeros n) = List.replicate (8 * n) false := by
  induction n with
  | zero => rfl
  | succ n ih =>
    calc bitsOf (zeros (n + 1))
      _ = List.replicate 8 false ++ bitsOf (zeros n) := rfl
      _ = List.replicate (8 * (n + 1)) false := by
        rw [ih, List.replicate_append_replicate, Nat.mul_succ, Nat.add_comm]

/-- The marker byte is the appended 1 bit and the first seven 0 bits (R102). -/
theorem bitsOf_marker : bitsOf [0x80] = [true] ++ List.replicate 7 false := by decide

theorem zeroBitCount_spec (n : Nat) : (n + 1 + zeroBitCount n) % 512 = 448 ∧ zeroBitCount n < 512 := by
  unfold zeroBitCount
  omega

/-- A smaller number of 0 bits would differ from the count of R101 by less than 512. -/
theorem zeroBitCount_minimal {n z : Nat} (hz : z < zeroBitCount n) : (n + 1 + z) % 512 ≠ 448 := by
  obtain ⟨hmod, hlt⟩ := zeroBitCount_spec n
  omega

theorem zeroBitCount_of_bytes (len : Nat) : zeroBitCount (8 * len) = 7 + 8 * zeroCount len := by
  obtain ⟨hbits, hbitsLt⟩ := zeroBitCount_spec (8 * len)
  obtain ⟨hbytes, hbytesLt⟩ := zeroCount_spec len
  omega

theorem bitsOf_padBytes (m : List Byte) : bitsOf (padBytes m) = padBits m := by
  have hzeros : List.replicate 7 false ++ bitsOf (zeros (zeroCount m.length)) =
      List.replicate (zeroBitCount (8 * m.length)) false := by
    rw [bitsOf_zeros, List.replicate_append_replicate, zeroBitCount_of_bytes]
  rw [padBytes, padWith, padBits, ← hzeros]
  simp only [bitsOf_append, bitsOf_marker, List.append_assoc]

/-- Settles O25: byte by byte the padded bytes are the padded bits, whose zero count is the least by its residue. -/
theorem bytePaddingIsTheBitPadding : Obligations.BytePaddingIsTheBitPadding := by
  intro m
  obtain ⟨hmod, -⟩ := zeroBitCount_spec (8 * m.length)
  exact ⟨bitsOf_padBytes m, hmod, fun _ => zeroBitCount_minimal, zeroBitCount_of_bytes m.length⟩

end Sys2Proof.Machine

/-! The captured length (R103): MSG_LEN has 32 bits, so that the bit length fits in the low 35 of the length field. -/

namespace Sys2Proof.Machine

theorem bitLength_toNat (len : Nat) : (bitLength len).toNat = 8 * len % 2 ^ 64 := BitVec.toNat_ofNat _ _

theorem bitLength_toNat_of_lt {len : Nat} (h : len < 2 ^ 32) : (bitLength len).toNat = 8 * len := by
  rw [bitLength_toNat]
  omega

/-- A byte of the length field that lies above the value is 0. -/
theorem extractByte_eq_zero {v : DWord} {k n : Nat} (hv : v.toNat < 2 ^ n) (hk : n ≤ 8 * k) :
    v.extractLsb' (8 * k) 8 = 0 := by
  have hlt : v.toNat < 2 ^ (8 * k) := hv.trans_le (Nat.pow_le_pow_right (by decide) hk)
  apply BitVec.eq_of_toNat_eq
  rw [BitVec.extractLsb'_toNat, Nat.shiftRight_eq_div_pow, Nat.div_eq_of_lt hlt]
  rfl

/-- The length field is the last eight bytes of the padded message (R102 "in words"). -/
theorem padWith_getElem?_lengthField (m : List Byte) (v : DWord) {k : Nat} (hk : k < 8) :
    (padWith m v)[64 * blockCount (padWith m v) - 8 + k]? = some (v.extractLsb' (8 * k) 8) := by
  have hstart : 64 * blockCount (padWith m v) - 8 = m.length + 1 + zeroCount m.length := by
    rw [← padWith_length_eq_blocks, padWith_length]
    omega
  rw [hstart, padWith_getElem?, if_neg (by omega), if_neg (by omega), if_neg (by omega), Nat.add_sub_cancel_left,
    le64Bytes_getElem? v k hk]

/-- A read of PAD after the padded bytes were written from address 0 on. -/
theorem Memory.read_writeBytes_zero {m : Memory} (h : m.wf) {bs : List Byte} {q : Nat} {b : Byte}
    (hq : bs[q]? = some b) :
    (m.writeBytes 0 bs).read q = b := by
  obtain ⟨hlt, -⟩ := List.getElem?_eq_some_iff.mp hq
  rw [Memory.read_writeBytes h, if_pos (by omega), Nat.sub_zero, hq]
  rfl

/-- What PAD captures and where (R103, R186): LEN_BITS, and its eight bytes at the end of the padded message. -/
theorem engineTurn_pad_length {s t : State} (hb : s.phase = .busy) (hseq : s.seq = .pad) (hwf : s.pad.wf)
    (h : engineTurn s = .next t) :
    t.lenBits = bitLength s.msgLen.toNat ∧
    ∀ k, k < 8 → t.pad.read (64 * t.nb - 8 + k) = t.lenBits.extractLsb' (8 * k) 8 := by
  cases engineTurn_effect h with
  | rest hnot => exact absurd hb hnot
  | pad =>
    exact ⟨rfl, fun k hk => Memory.read_writeBytes_zero hwf (padWith_getElem?_lengthField s.message _ hk)⟩
  | load _ hs | round _ hs | lastRound _ hs | fold _ hs | lastFold _ hs | format _ hs =>
    exact nomatch hseq.symm.trans hs

/-- Settles O26: MSG_LEN is a 32-bit word, so that 8 · MSG_LEN is below 2^35 and the top three bytes of the field that
PAD writes are 0. -/
theorem capturedLengthNeverWraps : Obligations.CapturedLengthNeverWraps := by
  intro s t hb hseq hwf h
  obtain ⟨hlen, hfield⟩ := engineTurn_pad_length hb hseq hwf h
  have hword : s.msgLen.toNat < 2 ^ 32 := s.msgLen.isLt
  have hexact : t.lenBits.toNat = 8 * s.msgLen.toNat := by rw [hlen, bitLength_toNat_of_lt hword]
  have hbound : t.lenBits.toNat < 2 ^ 35 := by omega
  refine ⟨by rw [hlen, bitLength_toNat], hexact, hbound, fun k hlow hhigh => ?_⟩
  rw [hfield k (by omega)]
  exact extractByte_eq_zero hbound (by omega)

end Sys2Proof.Machine

/-! The words of a block (R121, R187), and where the padding lands in them (R123). -/

namespace Sys2Proof.Machine

@[simp] theorem blockWords_getElem (byteAt : Nat → Byte) (j : Nat) {k : Nat} (hk : k < 16) :
    (blockWords byteAt j)[k] = blockWord byteAt j k := by
  simp [blockWords]

theorem engineTurn_load {s : State} (hb : s.phase = .busy) (hseq : s.seq = .load) (hj : s.j < s.cfg.nbMax) :
    engineTurn s = .next { s with x := blockWords s.pad.read s.j, work := s.acc, i := 0, seq := .round } := by
  have hblock : 64 * s.j + 64 ≤ s.padSize := by
    rw [State.padSize]
    omega
  simp [engineTurn, microStep, stepLoad, hb, hseq, hblock]

/-- Settles O27: below NB_MAX the block lies in PAD, so that LOAD answers, and each word is the little-endian
combination of its four bytes. -/
theorem loadMicroStepReadsTheBlock : Obligations.LoadMicroStepReadsTheBlock := by
  intro s hb hseq hj
  refine ⟨_, engineTurn_load hb hseq hj, fun k => ?_, rfl⟩
  rw [Fin.getElem_fin, blockWords_getElem, blockWord, le32_toNat]

theorem byteOf_blockWord (byteAt : Nat → Byte) (j k : Nat) {t : Nat} (ht : t < 4) :
    byteOf (blockWord byteAt j k) t = byteAt (64 * j + 4 * k + t) := by
  have hbytes : le32Bytes (blockWord byteAt j k) = _ := le32Bytes_le32 _ _ _ _
  simp only [le32Bytes, List.cons.injEq, and_true] at hbytes
  obtain ⟨h0, h1, h2, h3⟩ := hbytes
  match t with
  | 0 => exact h0
  | 1 => exact h1
  | 2 => exact h2
  | 3 => exact h3

/-- A word is its four bytes. -/
theorem word_eq_of_byteOf_eq {x y : Word} (h : ∀ t, t < 4 → byteOf x t = byteOf y t) : x = y := by
  have hbytes (t : Nat) (ht : t < 4) : x.toNat / 2 ^ (8 * t) % 256 = y.toNat / 2 ^ (8 * t) % 256 := by
    rw [← byteOf_toNat, ← byteOf_toNat, h t ht]
  have h0 := hbytes 0 (by decide)
  have h1 := hbytes 1 (by decide)
  have h2 := hbytes 2 (by decide)
  have h3 := hbytes 3 (by decide)
  bv_omega

/-- Byte t of word h of a double word is its byte 4h + t. -/
theorem byteOf_extractLsb' (v : DWord) (h : Nat) {t : Nat} (ht : t < 4) :
    byteOf (v.extractLsb' (32 * h) 32) t = v.extractLsb' (8 * (4 * h + t)) 8 := by
  have haddress : 8 * (4 * h + t) = 32 * h + 8 * t := by omega
  rw [byteOf, haddress]
  ext b hb
  have hinWord : 8 * t + b < 32 := by omega
  simp [hinWord, Nat.add_assoc]

theorem byteOf_messageWords (m : List Byte) (j : Nat) {k t : Nat} (hk : k < 16) (ht : t < 4) :
    byteOf (messageWords m j)[k] t = (padBytes m)[64 * j + 4 * k + t]?.getD 0 := by
  rw [messageWords, blockWords_getElem, byteOf_blockWord _ _ _ ht]

/-- The marker byte stands just past the message (R102 "in words"). -/
theorem padBytes_getElem?_length (m : List Byte) : (padBytes m)[m.length]? = some 0x80 := by
  rw [padBytes, padWith_getElem?, if_neg (Nat.lt_irrefl _), if_pos rfl]

/-- The last two words of the last block are the halves of the length field. -/
theorem messageWords_lengthField (m : List Byte) {h : Nat} (hh : h < 2) :
    (messageWords m (blockCount (padBytes m) - 1))[14 + h] = (bitLength m.length).extractLsb' (32 * h) 32 := by
  refine word_eq_of_byteOf_eq fun t ht => ?_
  have hcount : blockCount (padBytes m) = (m.length + 8) / 64 + 1 := blockCount_padWith m _
  have haddress : 64 * (blockCount (padBytes m) - 1) + 4 * (14 + h) + t =
      64 * blockCount (padBytes m) - 8 + (4 * h + t) := by omega
  have hfield : (padBytes m)[64 * blockCount (padBytes m) - 8 + (4 * h + t)]? =
      some ((bitLength m.length).extractLsb' (8 * (4 * h + t)) 8) :=
    padWith_getElem?_lengthField m _ (by omega)
  rw [byteOf_messageWords m _ (by omega) ht, haddress, hfield, Option.getD_some, byteOf_extractLsb' _ _ ht]

theorem bitLength_highWord_toNat {len : Nat} (h : len < 2 ^ 32) :
    ((bitLength len).extractLsb' 32 32).toNat = len / 2 ^ 29 := by
  rw [BitVec.extractLsb'_toNat, bitLength_toNat_of_lt h, Nat.shiftRight_eq_div_pow]
  omega

/-- Settles O28: the byte of a word is that of the padded message at the same address, so that the marker and the
halves of the length field are read off R102; the high half is L div 2^29. -/
theorem paddingInTheWords : Obligations.PaddingInTheWords := by
  intro m hm
  have hhigh := bitLength_highWord_toNat hm
  have h15 : (messageWords m (blockCount (padBytes m) - 1))[15] = (bitLength m.length).extractLsb' 32 32 :=
    messageWords_lengthField m (h := 1) (by decide)
  refine ⟨?marker, messageWords_lengthField m (h := 0) (by decide), h15, ?zero, ?bound⟩
  case marker =>
    have haddress : 64 * (m.length / 64) + 4 * (m.length % 64 / 4) + m.length % 4 = m.length := by omega
    calc byteOf (messageWords m (m.length / 64))[m.length % 64 / 4] (m.length % 4)
      _ = (padBytes m)[m.length]?.getD 0 := by rw [byteOf_messageWords m _ _ (by omega), haddress]
      _ = 0x80 := by rw [padBytes_getElem?_length, Option.getD_some]
  case zero =>
    rw [h15, ← BitVec.toNat_inj, hhigh, BitVec.ofNat_eq_ofNat, BitVec.toNat_zero, Nat.div_eq_zero_iff_lt (by decide)]
  case bound =>
    rw [h15, hhigh]
    omega

end Sys2Proof.Machine

/-! One round (R136 to R141) and the fold (R143), as the engine's turn runs them (R188, R189). -/

namespace Sys2Proof.Machine

/-- The complement of R136, as the exclusive or with a word of ones. -/
theorem xor_ones (x : Word) : x ^^^ 0xffffffff = ~~~x := BitVec.xor_allOnes

/-- The quarters of R137. -/
theorem mix_eq_by_quarter (i : Fin 64) (b c d : Word) :
    mix i b c d =
      if i.val < 16 then mixF b c d else if i.val < 32 then mixG b c d else if i.val < 48 then mixH b c d
      else mixI b c d := by
  have hi : i.val < 64 := i.isLt
  split_ifs with h16 h32 h48
  · have hq : i.val / 16 = 0 := by omega
    simp only [mix, hq]
  · have hq : i.val / 16 = 1 := by omega
    simp only [mix, hq]
  · have hq : i.val / 16 = 2 := by omega
    simp only [mix, hq]
  · have hq : i.val / 16 = 3 := by omega
    simp only [mix, hq]

/-- The rows of T (R138), by the quarters of the rounds. -/
theorem rotAmount_eq_by_quarter (i : Fin 64) :
    rotAmount i =
      (if i.val < 16 then [7, 12, 17, 22] else if i.val < 32 then [5, 9, 14, 20]
      else if i.val < 48 then [4, 11, 16, 23] else [6, 10, 15, 21])[i.val % 4]?.getD 0 := by
  decide +revert

theorem rotAmount_lt (i : Fin 64) : rotAmount i < 32 := by
  decide +revert

/-- One round of R141, with the sum of four words reduced once. -/
theorem roundStep_eq (k : Vector Word 64) (x : Vector Word 16) (i : Fin 64) (w : Quad) :
    roundStep k x i w =
      ⟨w.d, (BitVec.ofNat 32 ((mix i w.b w.c w.d).toNat + (x[i.val % 16]).toNat + (k[i]).toNat +
        w.a.toNat)).rotateLeft (rotAmount i) + w.b, w.b, w.c⟩ := by
  have hx : x[wordIndex i] = x[i.val % 16] := rfl
  simp only [roundStep, hx, rotl32_eq_rotateLeft _ (rotAmount_lt i), BitVec.ofNat_add, BitVec.ofNat_toNat,
    BitVec.setWidth_eq]

theorem engineTurn_round {s : State} (hb : s.phase = .busy) (hseq : s.seq = .round) :
    engineTurn s =
      if s.i = 63 then .next { s with work := roundStep s.cfg.kTable s.x s.i s.work, seq := .fold }
      else .next { s with work := roundStep s.cfg.kTable s.x s.i s.work, i := s.i + 1 } := by
  simp only [engineTurn, microStep, stepRound, hb, hseq, if_true]

/-- Settles O30: the quarter of i names the function and the row of amounts, and the round's sums are those of its
words. -/
theorem roundMicroStep : Obligations.RoundMicroStep := by
  intro s hb hseq b c d f amounts sum work
  have hf : mix s.i b c d = f := by
    simp only [f, mix_eq_by_quarter, mixF, mixG, mixH, mixI, xor_ones]
  have hwork : roundStep s.cfg.kTable s.x s.i s.work = work := by
    rw [roundStep_eq, rotAmount_eq_by_quarter, hf]
  rw [engineTurn_round hb hseq, hwork]
  exact ⟨fun hi => if_pos (Fin.ext hi),
    fun hi => ⟨_, if_neg (Fin.ne_of_lt hi), Fin.val_add_one_of_lt hi, rfl⟩⟩

theorem engineTurn_fold {s : State} (hb : s.phase = .busy) (hseq : s.seq = .fold) :
    engineTurn s =
      if s.cfg.firstBlockOnly = true ∨ s.j + 1 = s.nb then
        .next { s with acc := addQuad s.acc s.work, seq := .format }
      else .next { s with acc := addQuad s.acc s.work, j := s.j + 1, seq := .load } := by
  simp only [engineTurn, microStep, stepFold, hb, hseq, if_true]

/-- Settles O31: both ways out of FOLD hold the word sums of R143, which are sums mod 2^32. -/
theorem foldMicroStep : Obligations.FoldMicroStep := by
  intro s hb hseq
  rw [engineTurn_fold hb hseq]
  split_ifs with hlast
  · exact ⟨_, rfl, BitVec.toNat_add .., BitVec.toNat_add .., BitVec.toNat_add .., BitVec.toNat_add ..,
      fun _ => rfl, fun hf hj => by simp [hf, hj] at hlast⟩
  · exact ⟨_, rfl, BitVec.toNat_add .., BitVec.toNat_add .., BitVec.toNat_add .., BitVec.toNat_add ..,
      fun h => absurd h hlast, fun _ _ => rfl⟩

end Sys2Proof.Machine

/-! The hex digit formatter (R170 to R175): each character is the digit of one nibble of DIGEST, whose words hold the
bytes of the state registers reversed. -/

namespace Sys2Proof.Machine

/-- R175 for one digit. -/
theorem hexDigit_range (n : BitVec 4) :
    (0x30 ≤ (hexDigit n).toNat ∧ (hexDigit n).toNat ≤ 0x39) ∨
      (0x61 ≤ (hexDigit n).toNat ∧ (hexDigit n).toNat ≤ 0x66) := by
  have hn : n.toNat < 16 := n.isLt
  rw [hexDigit_toNat]
  split_ifs with hdecimal
  · exact .inl (by omega)
  · exact .inr (by omega)

@[simp] theorem hexChars_getElem (d : Vector Word 4) {n : Nat} (hn : n < 32) :
    (hexChars d)[n] = hexChar d ⟨n, hn⟩ :=
  Vector.getElem_ofFn hn

/-- The characters of word k are the digits of its nibbles (R173). -/
theorem hexChar_of_word (d : Vector Word 4) (k : Fin 4) {p : Nat} (hp : p < 8) :
    hexChar d ⟨8 * k.val + p, by omega⟩ = hexDigit ((d[k]).extractLsb' (28 - 4 * p) 4) := by
  have hk : (8 * k.val + p) / 8 = k.val := by omega
  have hdigit : (8 * k.val + p) % 8 = p := by omega
  simp only [hexChar, hk, hdigit, Fin.getElem_fin]

theorem digestWords_getElem (st : Quad) (k : Fin 4) : (digestWords st)[k] = bswap32 (quadWord st k) := by
  match k with
  | 0 | 1 | 2 | 3 => rfl

theorem digestBytes_getElem? (st : Quad) (k t : Fin 4) :
    (digestBytes st)[4 * k.val + t.val]? = some (byteOf (quadWord st k) t.val) := by
  match k with
  | 0 | 1 | 2 | 3 =>
    match t with
    | 0 | 1 | 2 | 3 => rfl

theorem byteOf_bswap32 (x : Word) (t : Fin 4) : byteOf (bswap32 x) (3 - t.val) = byteOf x t.val := by
  have hbytes : le32Bytes (bswap32 x) = _ := le32Bytes_le32 _ _ _ _
  simp only [le32Bytes, List.cons.injEq, and_true] at hbytes
  obtain ⟨h0, h1, h2, h3⟩ := hbytes
  match t with
  | 0 => exact h3
  | 1 => exact h2
  | 2 => exact h1
  | 3 => exact h0

/-- The nibble of a byte of a word is that of the word. -/
theorem extractLsb'_byteOf (x : Word) (t : Nat) {n : Nat} (hn : n ≤ 4) :
    (byteOf x t).extractLsb' n 4 = x.extractLsb' (8 * t + n) 4 := by
  ext b hb
  have hinByte : n + b < 8 := by omega
  simp [byteOf, hinByte, Nat.add_assoc]

/-- The characters of byte t of register k, high nibble first (R174). -/
theorem hexChar_of_byte (st : Quad) (k t : Fin 4) :
    hexChar (digestWords st) ⟨8 * k.val + 2 * t.val, by omega⟩ =
        hexDigit ((byteOf (quadWord st k) t.val).extractLsb' 4 4) ∧
      hexChar (digestWords st) ⟨8 * k.val + (2 * t.val + 1), by omega⟩ =
        hexDigit ((byteOf (quadWord st k) t.val).extractLsb' 0 4) := by
  have hhigh : 28 - 4 * (2 * t.val) = 8 * (3 - t.val) + 4 := by omega
  have hlow : 28 - 4 * (2 * t.val + 1) = 8 * (3 - t.val) + 0 := by omega
  rw [hexChar_of_word _ k (by omega), hexChar_of_word _ k (by omega), digestWords_getElem, hhigh, hlow,
    ← extractLsb'_byteOf _ _ (Nat.le_refl 4), ← extractLsb'_byteOf _ _ (Nat.zero_le 4), byteOf_bswap32]
  exact ⟨rfl, rfl⟩

theorem engineTurn_format {s : State} (hb : s.phase = .busy) (hseq : s.seq = .format) :
    engineTurn s = .next { s with
      digest := digestWords s.acc
      hexc := hexChars (digestWords s.acc)
      resValid := true
      phase := .done } := by
  simp only [engineTurn, microStep, stepFormat, hb, hseq, if_true]

/-- Settles O32: the words of DIGEST are the swapped registers, and the digit of a nibble is read by division. -/
theorem formatMicroStep : Obligations.FormatMicroStep := by
  intro s hb hseq
  refine ⟨_, engineTurn_format hb hseq, fun k => ?bytes, fun k p => ?digits, rfl⟩
  case bytes =>
    rw [digestWords_getElem, bswap32_toNat, quadWord_eq_getElem]
  case digits =>
    rw [hexChars_getElem, hexChar_of_word _ k p.isLt, hexDigit_toNat, BitVec.extractLsb'_toNat,
      Nat.shiftRight_eq_div_pow]

/-- Settles O33: byte q is byte q mod 4 of register q div 4, and the swap puts it where its two characters are read. -/
theorem hexStringIsTheDigestBytes : Obligations.HexStringIsTheDigestBytes := by
  intro st q
  obtain ⟨k, t, hq⟩ : ∃ k t : Fin 4, q.val = 4 * k.val + t.val :=
    ⟨⟨q.val / 4, by omega⟩, ⟨q.val % 4, by omega⟩, by simp only; omega⟩
  have haddress : 2 * (4 * k.val + t.val) = 8 * k.val + 2 * t.val := by omega
  obtain ⟨hhigh, hlow⟩ := hexChar_of_byte st k t
  simp only [hq, haddress, hexChars_getElem]
  exact ⟨_, digestBytes_getElem? st k t, hhigh, hlow⟩

/-- Settles O34: the string is a vector of 32 characters, each of them the digit of some nibble. -/
theorem hexCharactersAreLowercaseHexDigits : Obligations.HexCharactersAreLowercaseHexDigits := by
  intro d
  refine ⟨(hexChars d).length_toList, fun c hc => ?_⟩
  obtain ⟨n, hn, rfl⟩ := Vector.getElem_of_mem (Vector.mem_toList_iff.mp hc)
  rw [hexChars_getElem]
  exact hexDigit_range _

end Sys2Proof.Machine

/-! The sequencer (R185, R191, R195): which micro-step a turn of the engine is, where each one goes, and what ends BUSY;
and the one block of a short message (R193, D8). -/

namespace Sys2Proof.Machine

/-- Settles O6: a step takes the first turn, or the engine's when none is pending, and the BUSY engine the micro-step
that SEQ names. -/
theorem stepRunsTheEngine : Obligations.StepRunsTheEngine := by
  intro s
  refine ⟨fun rest h => step_of_turn h, fun h => by simp only [step, h], fun h => if_neg h, ?pad, ?load, ?round, ?fold,
    ?format⟩
  case pad | load | round | fold | format =>
    intro hb hseq
    simp only [engineTurn, microStep, hb, hseq, if_true]

/-- NB_eff by the length of the message (R192). -/
theorem effectiveBlocks_eq_by_length (firstBlockOnly : Bool) (m : List Byte) :
    effectiveBlocks firstBlockOnly m = if firstBlockOnly = true then 1 else (m.length + 8) / 64 + 1 := by
  rw [effectiveBlocks, padBytes, blockCount_padWith]

/-- A message that leaves room for the marker byte and the length field in one block has that block only (R102, R193). -/
theorem effectiveBlocks_of_length_le {m : List Byte} (hm : m.length ≤ 55) (firstBlockOnly : Bool) :
    effectiveBlocks firstBlockOnly m = 1 := by
  rw [effectiveBlocks_eq_by_length]
  split <;> omega

/-- Settles O36: one block is NB_eff under both values, and St(1) is its compression from IV. -/
theorem singleBlockResultsIgnoreFirstBlockOnly : Obligations.SingleBlockResultsIgnoreFirstBlockOnly := by
  intro cfg m hm
  constructor
  · simp only [hashState, effectiveBlocks_of_length_le hm]
  · rw [hashState, effectiveBlocks_of_length_le hm]
    rfl

/-- Settles O45: PHASE is written by PUSH, CLEAR and HASH, which a BUSY block does not accept, and by FORMAT (R37). -/
theorem busyEndsOnlyByFormatOrReset : Obligations.BusyEndsOnlyByFormatOrReset := by
  intro s t hb h
  by_cases hr : s.nextTurn = .reset
  · exact .inr (.inr hr)
  by_cases hphase : t.phase = s.phase
  · exact .inl (hphase.trans hb)
  obtain ⟨-, ⟨-, hnot, -⟩ | ⟨-, hnot⟩⟩ | ⟨ht, -⟩ | ⟨hdone, hturn, -, hseq⟩ := (step_itemWriters h hr).phase hphase
  · exact absurd hb hnot
  · exact absurd hb hnot
  · exact .inl ht
  · exact .inr (.inl ⟨hturn, hseq, hdone⟩)

/-- Settles O35: the effect of each micro-step names the position it goes to. -/
theorem sequencerTransitionTable : Obligations.SequencerTransitionTable := by
  refine ⟨fun s t hb h => ?hash, fun s t hb h => ?engine⟩
  case hash =>
    cases exec_effect h with
    | hash => exact ⟨rfl, rfl, rfl, rfl⟩
    | busyHash hbusy => exact absurd hbusy hb
  case engine =>
    cases engineTurn_effect h with
    | rest hnot => exact absurd hb hnot
    | pad _ hseq | load _ hseq | format _ hseq => simp [hseq, hb]
    | round _ hseq hi =>
      have hne : s.i.val ≠ 63 := fun hval => hi (Fin.ext hval)
      have hlt : s.i < 63 := by omega
      simp [hseq, hb, hne, Fin.val_add_one_of_lt hlt]
    | lastRound _ hseq hi => simp [hseq, hb, hi]
    | fold _ hseq hf hj => simp [hseq, hb, hf, hj]
    | lastFold _ hseq hlast =>
      have hcount : s.cfg.firstBlockOnly = false → s.j + 1 = s.nb := fun hf => hlast.resolve_left (by simp [hf])
      simpa [hseq, hb] using hcount

end Sys2Proof.Machine

/-! PAD (R186): the state it leaves, and what its memory reads as there (R102, R103). -/

namespace Sys2Proof.Machine

/-- The state PAD leaves (R186). -/
def State.afterPad (s : State) : State :=
  { s with
    lenBits := bitLength s.msgLen.toNat
    pad := s.pad.writeBytes 0 (padWith s.message (bitLength s.msgLen.toNat))
    nb := blockCount (padWith s.message (bitLength s.msgLen.toNat))
    acc := iv
    j := 0
    seq := .load }

theorem engineTurn_pad {s : State} (hb : s.phase = .busy) (hseq : s.seq = .pad)
    (hl : s.msgLen.toNat ≤ s.cfg.maxMsgBytes.toNat) : engineTurn s = .next s.afterPad := by
  simp only [engineTurn, microStep, stepPad, State.afterPad, hb, hseq, hl, if_true]

theorem State.afterPad_nb (s : State) : s.afterPad.nb = (s.msgLen.toNat + 8) / 64 + 1 :=
  (blockCount_padWith _ _).trans (by rw [State.message_length])

/-- What PAD holds below `64 · NB` is the padded message, byte for byte. -/
theorem State.read_afterPad {s : State} (hwf : s.pad.wf) {q : Nat} {b : Byte}
    (h : (padWith s.message (bitLength s.msgLen.toNat))[q]? = some b) : s.afterPad.pad.read q = b :=
  Memory.read_writeBytes_zero hwf h

theorem State.read_afterPad_above {s : State} (hwf : s.pad.wf) {q : Nat} (h : 64 * s.afterPad.nb ≤ q) :
    s.afterPad.pad.read q = s.pad.read q := by
  have hlen : (padWith s.message (bitLength s.msgLen.toNat)).length = 64 * s.afterPad.nb := padWith_length_eq_blocks _ _
  refine (Memory.read_writeBytes hwf 0 _ q).trans (if_neg ?_)
  omega

theorem State.message_getElem? {s : State} {q : Nat} (h : q < s.msgLen.toNat) :
    s.message[q]? = some (s.msg.read q) := by
  rw [State.message, Memory.readBytes_getElem?, if_pos h, Nat.zero_add]

/-- The zero bytes stand between the marker byte and the length field (R102 "in words"). -/
theorem padWith_getElem?_zeros {m : List Byte} {v : DWord} {q : Nat} (hlow : m.length < q)
    (hhigh : q < 64 * blockCount (padWith m v) - 8) : (padWith m v)[q]? = some 0 := by
  rw [← padWith_length_eq_blocks, padWith_length, Nat.add_sub_cancel] at hhigh
  rw [padWith_getElem?, if_neg (by omega), if_neg (by omega), if_pos hhigh]

/-- Byte k of the length field, by arithmetic (R103). -/
theorem extractByte_bitLength {len : Nat} (h : len < 2 ^ 32) (k : Nat) :
    (bitLength len).extractLsb' (8 * k) 8 = BitVec.ofNat 8 (8 * len / 2 ^ (8 * k)) := by
  apply BitVec.eq_of_toNat_eq
  rw [BitVec.extractLsb'_toNat, bitLength_toNat_of_lt h, Nat.shiftRight_eq_div_pow, BitVec.toNat_ofNat]

/-- Settles O22: PAD writes the padded message over its own bytes, and each clause reads one part of it. -/
theorem padMicroStepWritesThePaddedMessage : Obligations.PadMicroStepWritesThePaddedMessage := by
  intro s hb hseq hl hwf
  have hmessage := s.message_length
  refine ⟨s.afterPad, engineTurn_pad hb hseq hl, bitLength_toNat_of_lt s.msgLen.isLt, s.afterPad_nb,
    fun q hq => ?message, ?marker, fun q hlow hhigh => ?zeros, fun k hk => ?field,
    fun q hq => State.read_afterPad_above hwf hq, rfl, rfl, rfl, rfl⟩
  case message =>
    refine State.read_afterPad hwf ?_
    rw [padWith_getElem?, hmessage, if_pos hq, State.message_getElem? hq]
  case marker =>
    refine State.read_afterPad hwf ?_
    rw [padWith_getElem?, hmessage, if_neg (Nat.lt_irrefl _), if_pos rfl]
  case zeros => exact State.read_afterPad hwf (padWith_getElem?_zeros (by rwa [hmessage]) hhigh)
  case field =>
    rw [← extractByte_bitLength s.msgLen.isLt k]
    exact State.read_afterPad hwf (padWith_getElem?_lengthField _ _ hk)

end Sys2Proof.Machine

/-! The hash invariant (R194): each micro-step computes what the hash function says at its point of the run, and no other
turn disturbs it. -/

namespace Sys2Proof.Machine

/-- The words of a block depend on the bytes below its end only. -/
theorem blockWords_congr {f g : Nat → Byte} {j : Nat} (h : ∀ q < 64 * j + 64, f q = g q) :
    blockWords f j = blockWords g j := by
  refine Vector.ext fun k hk => ?_
  simp only [blockWords_getElem, blockWord]
  rw [h _ (by omega), h _ (by omega), h _ (by omega), h _ (by omega)]

theorem effectiveBlocks_pos (firstBlockOnly : Bool) (m : List Byte) : 0 < effectiveBlocks firstBlockOnly m := by
  rw [effectiveBlocks_eq_by_length]
  split <;> omega

theorem effectiveBlocks_le (firstBlockOnly : Bool) (m : List Byte) :
    effectiveBlocks firstBlockOnly m ≤ blockCount (padBytes m) := by
  rw [effectiveBlocks_eq_by_length, padBytes, blockCount_padWith]
  split <;> omega

theorem roundsUpTo_succ (k : Vector Word 64) (x : Vector Word 16) (st : Quad) (i : Fin 64) :
    roundsUpTo k x st (i.val + 1) = roundStep k x i (roundsUpTo k x st i.val) := by
  rw [roundsUpTo, Fin.ofNat_val_eq_self]

theorem State.afterPad_blockOk {s : State} (hwf : s.pad.wf) : s.afterPad.blockOk := by
  have hpad : padWith s.message (bitLength s.msgLen.toNat) = padBytes s.message := by
    rw [padBytes, State.message_length]
  have hnb : s.afterPad.nb = blockCount (padBytes s.message) := congrArg blockCount hpad
  refine ⟨⟨rfl, hnb, fun q hq => ?_⟩, effectiveBlocks_pos _ _, rfl⟩
  have hlt : q < (padBytes s.message).length := by
    rwa [padBytes, padWith_length_eq_blocks, ← padBytes, ← hnb]
  have hbyte : (padBytes s.message)[q]? = some (padBytes s.message)[q] := List.getElem?_eq_getElem hlt
  calc s.afterPad.pad.read q
    _ = (padBytes s.message)[q] := State.read_afterPad hwf (by rw [hpad, hbyte])
    _ = (padBytes s.message)[q]?.getD 0 := by rw [hbyte, Option.getD_some]

/-- What LOAD reads of PAD is the block of the padded message (R145, R187). -/
theorem State.blockOk.blockWords_eq {s : State} (h : s.blockOk) :
    blockWords s.pad.read s.j = messageWords s.message s.j := by
  obtain ⟨⟨-, hnb, hread⟩, hj, -⟩ := h
  have hle := effectiveBlocks_le s.cfg.firstBlockOnly s.message
  exact blockWords_congr fun q hq => hread q (by omega)

/-- FOLD after all the rounds of Block j takes `St(j)` to `St(j + 1)` (R142, R145). -/
theorem State.blockOk.addQuad_eq {s : State} (h : s.blockOk) (hx : s.x = messageWords s.message s.j)
    (hwork : s.work = roundsUpTo s.cfg.kTable s.x s.acc 64) :
    addQuad s.acc s.work = stateAfter s.cfg.kTable s.message (s.j + 1) := by
  obtain ⟨-, -, hacc⟩ := h
  rw [hwork, hx, hacc]
  rfl

/-- The block after which FOLD goes to FORMAT is the last one of R192. -/
theorem State.blockOk.effectiveBlocks_eq {s : State} (h : s.blockOk)
    (hlast : s.cfg.firstBlockOnly = true ∨ s.j + 1 = s.nb) :
    effectiveBlocks s.cfg.firstBlockOnly s.message = s.j + 1 := by
  obtain ⟨⟨-, hnb, -⟩, hj, -⟩ := h
  have hle := effectiveBlocks_le s.cfg.firstBlockOnly s.message
  rcases hlast with hf | hlast
  · simp only [hf, effectiveBlocks, if_true] at hj ⊢
    omega
  · omega

theorem State.blockOk.lt_effectiveBlocks {s : State} (h : s.blockOk) (hf : s.cfg.firstBlockOnly = false)
    (hj : s.j + 1 ≠ s.nb) : s.j + 1 < effectiveBlocks s.cfg.firstBlockOnly s.message := by
  obtain ⟨⟨-, hnb, -⟩, hlt, -⟩ := h
  simp only [hf, effectiveBlocks, Bool.false_eq_true, if_false] at hlt ⊢
  omega

/-- While BUSY no result read is defined (R219), so that the progress is all there is to keep. -/
theorem State.hashInv_of_busy {s : State} (hb : s.phase = .busy) (h : s.progressOk) : s.HashInv := by
  refine ⟨fun _ => h, fun hdone => ?_, fun hdefined => ?_⟩
  · exact nomatch hb.symm.trans hdone
  · exact absurd hb (State.resultDefined_iff.mp hdefined).1

/-- In IDLE the results are those of an earlier hash (R63). -/
theorem State.hashInv_of_idle {s : State} (hi : s.phase = .idle) (h : s.resValid = true → s.resultOk) : s.HashInv := by
  refine ⟨fun hb => ?_, fun hdone => ?_, fun hdefined => h (State.resultDefined_iff.mp hdefined).2⟩
  · exact nomatch hi.symm.trans hb
  · exact nomatch hi.symm.trans hdone

theorem State.hashInv_of_pad {s : State} (hb : s.phase = .busy) (hseq : s.seq = .pad) : s.HashInv :=
  State.hashInv_of_busy hb (by simp [State.progressOk, hseq])

theorem State.HashInv.progress {s : State} (hs : s.HashInv) (hb : s.phase = .busy) : s.progressOk := hs.1 hb

theorem CommandEffect.keeps_hashInv {s t : State} {i : Instr} (h : CommandEffect s i t) (hs : s.HashInv) :
    t.HashInv := by
  cases h with
  | clear hb | push _ hb =>
    obtain ⟨-, -, hresult⟩ := hs
    exact State.hashInv_of_idle rfl fun hv => hresult (State.resultDefined_iff.mpr ⟨hb, hv⟩)
  | hash hb => exact State.hashInv_of_pad rfl rfl
  | nop | full | busyClear | busyPush | busyHash | reserved => exact hs

theorem EngineEffect.keeps_hashInv {s t : State} (h : EngineEffect s t) (hinv : s.Inv) (hs : s.HashInv) :
    t.HashInv := by
  cases h with
  | rest => exact hs
  | pad hb hseq =>
    obtain ⟨⟨-, -, hwf, -⟩, -⟩ := hinv
    exact State.hashInv_of_busy hb ⟨fun _ => State.afterPad_blockOk hwf, nofun, nofun, nofun⟩
  | load hb hseq =>
    obtain ⟨hload, -⟩ := hs.progress hb
    have hblock := hload hseq
    exact State.hashInv_of_busy hb ⟨nofun, fun _ => ⟨hblock, hblock.blockWords_eq, rfl⟩, nofun, nofun⟩
  | round hb hseq hi =>
    obtain ⟨-, hround, -⟩ := hs.progress hb
    obtain ⟨hblock, hx, hwork⟩ := hround hseq
    have hlt : s.i < 63 := by omega
    have hnext : roundStep s.cfg.kTable s.x s.i s.work = roundsUpTo s.cfg.kTable s.x s.acc (s.i + 1).val := by
      rw [Fin.val_add_one_of_lt hlt, roundsUpTo_succ, ← hwork]
    refine State.hashInv_of_busy hb ⟨?_, fun _ => ⟨hblock, hx, hnext⟩, ?_, ?_⟩ <;> simp [hseq]
  | lastRound hb hseq hi =>
    obtain ⟨-, hround, -⟩ := hs.progress hb
    obtain ⟨hblock, hx, hwork⟩ := hround hseq
    have hall : roundStep s.cfg.kTable s.x s.i s.work = roundsUpTo s.cfg.kTable s.x s.acc 64 := by
      rw [hwork, ← roundsUpTo_succ, hi]
      rfl
    exact State.hashInv_of_busy hb ⟨nofun, nofun, fun _ => ⟨hblock, hx, hall⟩, nofun⟩
  | fold hb hseq hf hj =>
    obtain ⟨-, -, hfold, -⟩ := hs.progress hb
    obtain ⟨hblock, hx, hwork⟩ := hfold hseq
    have hnext := hblock.lt_effectiveBlocks hf hj
    have hacc := hblock.addQuad_eq hx hwork
    obtain ⟨hpadded, -⟩ := hblock
    exact State.hashInv_of_busy hb ⟨fun _ => ⟨hpadded, hnext, hacc⟩, nofun, nofun, nofun⟩
  | lastFold hb hseq hlast =>
    obtain ⟨-, -, hfold, -⟩ := hs.progress hb
    obtain ⟨hblock, hx, hwork⟩ := hfold hseq
    have hfinal : addQuad s.acc s.work = hashState s.cfg s.message := by
      rw [hblock.addQuad_eq hx hwork, hashState, hblock.effectiveBlocks_eq hlast]
    exact State.hashInv_of_busy hb ⟨nofun, nofun, nofun, fun _ => hfinal⟩
  | format hb hseq =>
    obtain ⟨-, -, -, hformat⟩ := hs.progress hb
    exact ⟨nofun, fun _ => hformat hseq, fun _ => ⟨rfl, rfl⟩⟩

theorem TurnEffect.keeps_hashInv {s t : State} {turn : Turn} (h : TurnEffect s turn t) (hinv : s.Inv)
    (hs : s.HashInv) : t.HashInv := by
  cases h with
  | engine h => exact h.keeps_hashInv hinv hs
  | command w h => exact h.keeps_hashInv hs
  | ignored | defined | draw => exact hs
  | reset => exact State.hashInv_of_idle rfl nofun

/-- Settles O51: a step is one effect of a turn, and each effect keeps the agreement with the hash function. -/
theorem everyStepKeepsTheHashInvariant : Obligations.EveryStepKeepsTheHashInvariant := by
  intro s t hinv hs h
  exact (step_effect h).keeps_hashInv hinv hs

end Sys2Proof.Machine

/-! Under the invariant of the machine every turn answers (R240, R245), and a step uses up one pending turn (R61). -/

namespace Sys2Proof.Machine

theorem exec_answers (i : Instr) {s : State} (hl : s.msgLen.toNat ≤ s.cfg.maxMsgBytes.toNat) :
    ∃ t, exec i s = .next t := by
  cases i with
  | nop | reserved => exact ⟨_, rfl⟩
  | clear | hash =>
    simp only [exec, execClear, execHash, unlessBusy]
    split <;> exact ⟨_, rfl⟩
  | push data =>
    simp only [exec, execPush, unlessBusy]
    split_ifs with hb hm
    · exact ⟨_, rfl⟩
    · exact ⟨_, rfl⟩
    · have hlt : s.msgLen.toNat < s.cfg.maxMsgBytes.toNat := by bv_omega
      exact ⟨_, if_pos hlt⟩

theorem engineTurn_answers {s : State} (hs : s.Inv) : ∃ t, engineTurn s = .next t := by
  obtain ⟨-, hl, ⟨-, hmax⟩, hj, -⟩ := hs
  by_cases hb : s.phase = .busy
  · cases hseq : s.seq with
    | pad => exact ⟨_, engineTurn_pad hb hseq hl⟩
    | load =>
      have hlt : s.j < s.nb := hj hb (by simp [hseq])
      exact ⟨_, engineTurn_load hb hseq (by omega)⟩
    | round =>
      rw [engineTurn_round hb hseq]
      split <;> exact ⟨_, rfl⟩
    | fold =>
      rw [engineTurn_fold hb hseq]
      split <;> exact ⟨_, rfl⟩
    | format => exact ⟨_, engineTurn_format hb hseq⟩
  · exact ⟨_, if_neg hb⟩

theorem takeTurn_answers (turn : Turn) {s : State} (hs : s.Inv) : ∃ t, takeTurn turn s = .next t := by
  have ⟨_, hl, _⟩ := hs
  match turn with
  | .engine => exact engineTurn_answers hs
  | .host (.read n) => exact ⟨_, takeTurn_read n s⟩
  | .host (.write n w) =>
    simp only [takeTurn, hostAccess, hostWrite]
    split
    · exact exec_answers _ hl
    · exact ⟨_, rfl⟩
  | .reset => exact ⟨_, rfl⟩

/-- No step stops under the invariant (R240, R245). -/
theorem step_answers {s : State} (hs : s.Inv) : ∃ t, step s = .next t := by
  rw [step_eq]
  exact takeTurn_answers _ hs

theorem CommandEffect.turns_eq {s t : State} {i : Instr} (h : CommandEffect s i t) : t.turns = s.turns := by
  cases h <;> rfl

theorem EngineEffect.turns_eq {s t : State} (h : EngineEffect s t) : t.turns = s.turns := by
  cases h <;> rfl

theorem TurnEffect.turns_eq {s t : State} {turn : Turn} (h : TurnEffect s turn t) : t.turns = s.turns := by
  cases h with
  | engine h => exact h.turns_eq
  | command w h => exact h.turns_eq
  | ignored | defined | draw | reset => rfl

theorem step_turns_eq {s t : State} (h : step s = .next t) : t.turns = s.turns.tail := (step_effect h).turns_eq

end Sys2Proof.Machine

/-! The micro-steps left (R192): each effect of the engine takes one off the count. -/

namespace Sys2Proof.Machine

theorem State.microStepsLeft_of_not_busy {s : State} (h : s.phase ≠ .busy) : s.microStepsLeft = 0 := if_neg h

theorem State.microStepsLeft_pos_iff {s : State} : 0 < s.microStepsLeft ↔ s.phase = .busy := by
  by_cases hb : s.phase = .busy
  · refine iff_of_true ?_ hb
    simp only [State.microStepsLeft, if_pos hb]
    split <;> omega
  · simp [State.microStepsLeft_of_not_busy hb, hb]

theorem State.microStepsLeft_of_pad {s : State} (hb : s.phase = .busy) (hseq : s.seq = .pad) :
    s.microStepsLeft = 2 + 66 * effectiveBlocks s.cfg.firstBlockOnly s.message := by
  simp only [State.microStepsLeft, hb, hseq, if_true]

/-- Right after PAD the blocks left are all those of R192. -/
theorem State.afterPad_blocksLeft (s : State) :
    s.afterPad.blocksLeft = effectiveBlocks s.cfg.firstBlockOnly s.message := by
  rw [effectiveBlocks, padBytes, State.message_length]
  rfl

theorem State.blocksLeft_of_last {s : State} (h : s.cfg.firstBlockOnly = true ∨ s.j + 1 = s.nb) :
    s.blocksLeft = 1 := by
  rw [State.blocksLeft]
  split_ifs with hf
  · rfl
  · have hlast : s.j + 1 = s.nb := h.resolve_left hf
    omega

theorem EngineEffect.microStepsLeft_succ {s t : State} (h : EngineEffect s t) (hinv : s.Inv) (hb : s.phase = .busy) :
    t.microStepsLeft + 1 = s.microStepsLeft := by
  obtain ⟨-, -, -, hj, -⟩ := hinv
  cases h with
  | rest hnot => exact absurd hb hnot
  | pad _ hseq =>
    have hleft : State.microStepsLeft s.afterPad = 66 * s.afterPad.blocksLeft + 1 := if_pos hb
    change s.afterPad.microStepsLeft + 1 = _
    rw [hleft, State.afterPad_blocksLeft, State.microStepsLeft_of_pad hb hseq]
    omega
  | load _ hseq =>
    have hlt : s.j < s.nb := hj hb (by simp [hseq])
    simp only [State.microStepsLeft, State.blocksLeft, hb, hseq, if_true]
    split_ifs <;> omega
  | round _ hseq hi =>
    have hlt : s.i < 63 := by omega
    have hval : (s.i + 1).val = s.i.val + 1 := Fin.val_add_one_of_lt hlt
    simp only [State.microStepsLeft, State.blocksLeft, hb, hseq, if_true, hval]
    omega
  | lastRound _ hseq hi =>
    simp only [State.microStepsLeft, State.blocksLeft, hb, hseq, if_true, hi]
    omega
  | fold _ hseq hf =>
    have hlt : s.j < s.nb := hj hb (by simp [hseq])
    simp only [State.microStepsLeft, State.blocksLeft, hb, hseq, hf, if_true, Bool.false_eq_true, if_false]
    omega
  | lastFold _ hseq hlast =>
    simp only [State.microStepsLeft, hb, hseq, if_true, State.blocksLeft_of_last hlast]
  | format _ hseq => simp [State.microStepsLeft, hb, hseq]

theorem SameButHostRecord.microStepsLeft_eq {s t : State} (h : SameButHostRecord s t) :
    t.microStepsLeft = s.microStepsLeft :=
  (congrArg State.microStepsLeft h).trans rfl

theorem TurnEffect.microStepsLeft_add_count {s t : State} {turn : Turn} (h : TurnEffect s turn t) (hinv : s.Inv)
    (hb : s.phase = .busy) (hr : turn ≠ .reset) :
    t.microStepsLeft + [turn].count .engine = s.microStepsLeft := by
  match turn with
  | .engine =>
    cases h with
    | engine h => exact h.microStepsLeft_succ hinv hb
  | .host access => exact (h.sameButHostRecord_of_busy hb).microStepsLeft_eq
  | .reset => exact absurd rfl hr

theorem step_microStepsLeft {s t : State} (hinv : s.Inv) (hb : s.phase = .busy) (h : step s = .next t)
    (hr : s.nextTurn ≠ .reset) :
    t.microStepsLeft + [s.nextTurn].count .engine = s.microStepsLeft :=
  (step_effect h).microStepsLeft_add_count hinv hb hr

/-- Settles O48: the engine's effect takes one off the count, an access writes nothing that the count depends on, and
the count is positive just while BUSY. -/
theorem microStepsLeftCountsDown : Obligations.MicroStepsLeftCountsDown := by
  intro s t hinv hb h
  refine ⟨fun hturn => ?_, fun access hturn => ?_, State.microStepsLeft_pos_iff⟩
  · simpa [hturn] using step_microStepsLeft hinv hb h
  · simpa [hturn] using step_microStepsLeft hinv hb h

end Sys2Proof.Machine

/-! Runs of a BUSY block (R192, R194, R195, R197): while fewer engine turns than micro-steps left have passed the hash goes
on, and the last one ends it in DONE with its result. -/

namespace Sys2Proof.Machine

/-- The next n turns of a list of pending ones, after which the engine goes on alone (log 6). -/
def upcoming : Nat → List Turn → List Turn
  | 0, _ => []
  | n + 1, turns => turns.head?.getD .engine :: upcoming n turns.tail

theorem upcoming_nil (n : Nat) : upcoming n [] = List.replicate n .engine := by
  induction n with
  | zero => rfl
  | succ n ih => simp [upcoming, ih, List.replicate_succ]

theorem upcoming_append (before rest : List Turn) : upcoming before.length (before ++ rest) = before := by
  induction before with
  | nil => rfl
  | cons turn before ih => simp [upcoming, ih]

theorem upcoming_succ (n : Nat) (s : State) :
    upcoming (n + 1) s.turns = [s.nextTurn] ++ upcoming n s.turns.tail := rfl

/-- A hash in progress that agrees with the hash function. -/
structure State.Hashing (s : State) : Prop where
  inv : s.Inv
  hashInv : s.HashInv
  busy : s.phase = .busy

/-- Between two states of a run the message and the parameters are the same, and the later one meets both invariants. -/
structure SameHash (s t : State) : Prop where
  inv : t.Inv
  hashInv : t.HashInv
  message : t.message = s.message
  cfg : t.cfg = s.cfg

theorem State.hashing_of_pad {s : State} (hinv : s.Inv) (hb : s.phase = .busy) (hseq : s.seq = .pad) : s.Hashing :=
  ⟨hinv, State.hashInv_of_pad hb hseq, hb⟩

theorem State.Hashing.sameHash_self {s : State} (hs : s.Hashing) : SameHash s s := ⟨hs.inv, hs.hashInv, rfl, rfl⟩

theorem SameHash.trans {s t u : State} (h : SameHash s t) (h' : SameHash t u) : SameHash s u :=
  ⟨h'.inv, h'.hashInv, h'.message.trans h.message, h'.cfg.trans h.cfg⟩

/-- A BUSY block accepts no command that writes the message (R37). -/
theorem step_message_eq {s t : State} (hb : s.phase = .busy) (h : step s = .next t) (hr : s.nextTurn ≠ .reset) :
    t.message = s.message := by
  have hw := step_itemWriters h hr
  have hpush : ¬s.nextPushes := fun ⟨_, hnot, _⟩ => hnot hb
  have hclear : ¬s.nextClears := fun ⟨_, hnot⟩ => hnot hb
  have hmsg : t.msg = s.msg := not_not.mp (mt hw.msg hpush)
  have hlen : t.msgLen = s.msgLen := not_not.mp (mt hw.msgLen (not_or.mpr ⟨hpush, hclear⟩))
  rw [State.message, State.message, hmsg, hlen]

theorem State.Hashing.next {s : State} (hs : s.Hashing) (hr : s.nextTurn ≠ .reset) :
    ∃ t, step s = .next t ∧ t.turns = s.turns.tail ∧
      t.microStepsLeft + [s.nextTurn].count .engine = s.microStepsLeft ∧ SameHash s t := by
  obtain ⟨t, h⟩ := step_answers hs.inv
  exact ⟨t, h, step_turns_eq h, step_microStepsLeft hs.inv hs.busy h hr,
    everyStepKeepsTheInvariant s t hs.inv h, everyStepKeepsTheHashInvariant s t hs.inv hs.hashInv h,
    step_message_eq hs.busy h hr, step_cfg_eq h⟩

/-- With fewer engine turns to come than micro-steps left the hash goes on, whatever the host does among them (R195). -/
theorem State.Hashing.keeps_on (n : Nat) {s : State} (hs : s.Hashing) (hr : .reset ∉ upcoming n s.turns)
    (hcount : (upcoming n s.turns).count .engine < s.microStepsLeft) :
    ∃ t, run n s = .next t ∧ t.Hashing ∧ t.turns = s.turns.drop n ∧
      t.microStepsLeft + (upcoming n s.turns).count .engine = s.microStepsLeft ∧ SameHash s t := by
  induction n generalizing s with
  | zero => exact ⟨s, rfl, hs, rfl, rfl, hs.sameHash_self⟩
  | succ n ih =>
    rw [upcoming_succ, List.count_append] at hcount ⊢
    rw [upcoming_succ, List.mem_append, not_or] at hr
    obtain ⟨hfirst, hlater⟩ := hr
    obtain ⟨s', hstep, hturns, hleft, hsame⟩ := hs.next fun h => hfirst (by simp [h])
    rw [← hturns] at hcount hlater ⊢
    have hs' : s'.Hashing := ⟨hsame.inv, hsame.hashInv, State.microStepsLeft_pos_iff.mp (by omega)⟩
    obtain ⟨t, hrun, ht, hrest, hleft', hsame'⟩ := ih hs' hlater (by omega)
    refine ⟨t, (run_succ hstep n).trans hrun, ht, ?_, by omega, hsame.trans hsame'⟩
    rw [hrest, hturns, List.drop_tail]

/-- The engine turn that takes the last micro-step ends the hash in DONE, with the results of the hash function (R194). -/
theorem State.Hashing.run_done (n : Nat) {s : State} (hs : s.Hashing) (hr : .reset ∉ upcoming n s.turns)
    (hcount : (upcoming n s.turns).count .engine + 1 = s.microStepsLeft)
    (hlast : (s.turns.drop n).head?.getD .engine = .engine) :
    ∃ t, run (n + 1) s = .next t ∧ t.turns = s.turns.drop (n + 1) ∧ t.phase = .done ∧ SameHash s t := by
  obtain ⟨u, hrun, hu, hturns, hleft, hsame⟩ := hs.keeps_on n hr (by omega)
  have hturn : u.nextTurn = .engine := by rw [State.nextTurn, hturns, hlast]
  obtain ⟨t, hstep, hturns', hleft', hsame'⟩ := hu.next (by simp [hturn])
  have hnot : t.phase ≠ .busy := by
    have hzero : t.microStepsLeft = 0 := by
      rw [hturn, List.count_singleton_self] at hleft'
      omega
    intro hb
    have hpos := State.microStepsLeft_pos_iff.mpr hb
    omega
  have hdone : t.phase = .done := by
    obtain hb | ⟨-, -, hdone⟩ | hreset := busyEndsOnlyByFormatOrReset u t hu.busy hstep
    · exact absurd hb hnot
    · exact hdone
    · exact nomatch hturn.symm.trans hreset
  refine ⟨t, ?_, ?_, hdone, hsame.trans hsame'⟩
  · rw [run_add hrun, run_succ hstep, run_zero]
  · rw [hturns', hturns, List.tail_drop]

/-- The results in DONE, by the state in which the hash started. -/
theorem SameHash.results {s t : State} (h : SameHash s t) (hdone : t.phase = .done) :
    t.acc = hashState s.cfg s.message ∧ t.digest = digestWords t.acc ∧ t.hexc = hexChars t.digest := by
  obtain ⟨-, -, -, -, hvalid⟩ := h.inv
  obtain ⟨-, hacc, hresult⟩ := h.hashInv
  obtain ⟨hdigest, hhexc⟩ := hresult (State.resultDefined_iff.mpr ⟨by simp [hdone], hvalid hdone⟩)
  refine ⟨?_, hdigest, hhexc.trans (by rw [hdigest])⟩
  rw [hacc hdone, h.cfg, h.message]

/-- The engine alone ends the hash in as many steps as there are micro-steps left. -/
theorem State.Hashing.run_alone {s : State} (hs : s.Hashing) (hturns : s.turns = []) :
    ∃ t, run s.microStepsLeft s = .next t ∧ t.phase = .done ∧ SameHash s t := by
  obtain ⟨n, hn⟩ := Nat.exists_eq_add_one.mpr (State.microStepsLeft_pos_iff.mpr hs.busy)
  have hcome : upcoming n s.turns = List.replicate n .engine := by rw [hturns, upcoming_nil]
  obtain ⟨t, hrun, -, hdone, hsame⟩ := hs.run_done n (by simp [hcome]) (by simp [hcome, hn]) (by simp [hturns])
  exact ⟨t, hn ▸ hrun, hdone, hsame⟩

/-- Settles O49: at S_PAD the count of micro-steps left is that of R192, and with no turn pending each step is one of
them. -/
theorem hashTakesExactlyTheCountedMicroSteps : Obligations.HashTakesExactlyTheCountedMicroSteps := by
  intro s hinv hb hseq hturns count
  have hs := State.hashing_of_pad hinv hb hseq
  have hcount : s.microStepsLeft = count := by
    rw [State.microStepsLeft_of_pad hb hseq, effectiveBlocks_eq_by_length, State.message_length]
  rw [← hcount]
  refine ⟨fun n hn => ?before, ?last⟩
  case before =>
    have hcome : upcoming n s.turns = List.replicate n .engine := by rw [hturns, upcoming_nil]
    obtain ⟨t, hrun, ht, -⟩ := hs.keeps_on n (by simp [hcome]) (by simpa [hcome] using hn)
    exact ⟨t, hrun, ht.busy⟩
  case last =>
    obtain ⟨t, hrun, hdone, -⟩ := hs.run_alone hturns
    exact ⟨t, hrun, hdone⟩

/-- Settles O53: the turns before the last one hold one engine turn less than there are micro-steps left, so that the
hash goes on until that one, which ends it. -/
theorem everyInterleavingComputesTheHash : Obligations.EveryInterleavingComputesTheHash := by
  intro s before rest hinv hb hseq hturns hr hcount
  have hs := State.hashing_of_pad hinv hb hseq
  have hcome : upcoming before.length s.turns = before := by rw [hturns, upcoming_append]
  have hdrop : s.turns.drop before.length = .engine :: rest := by rw [hturns, List.drop_left]
  obtain ⟨t, hrun, hturns', hdone, hsame⟩ := hs.run_done before.length (by rwa [hcome])
    (by rw [hcome, hcount, State.microStepsLeft_of_pad hb hseq]) (by rw [hdrop]; rfl)
  obtain ⟨hacc, hdigest, hhexc⟩ := hsame.results hdone
  refine ⟨t, hrun, ?_, hdone, hsame.message, hacc, hdigest, hhexc, ?_⟩
  · rw [hturns', ← List.tail_drop, hdrop, List.tail_cons]
  · rw [hhexc, hdigest, hacc, hashChars]

/-- Settles O54: both engines take the same number of micro-steps, and each result is the hash of what the two states
share. -/
theorem noHiddenStateBetweenHashes : Obligations.NoHiddenStateBetweenHashes := by
  intro s t hs ht hbs hbt hseqs hseqt hturnss hturnst hmessage hk hfirst
  obtain ⟨u, hrunu, hdoneu, hsameu⟩ := (State.hashing_of_pad hs hbs hseqs).run_alone hturnss
  obtain ⟨v, hrunv, hdonev, hsamev⟩ := (State.hashing_of_pad ht hbt hseqt).run_alone hturnst
  obtain ⟨haccu, hdigestu, hhexcu⟩ := hsameu.results hdoneu
  obtain ⟨haccv, hdigestv, hhexcv⟩ := hsamev.results hdonev
  have hcount : t.microStepsLeft = s.microStepsLeft := by
    rw [State.microStepsLeft_of_pad hbs hseqs, State.microStepsLeft_of_pad hbt hseqt, hmessage, hfirst]
  have hacc : u.acc = v.acc := by
    rw [haccu, haccv, hashState, hashState, hmessage, hk, hfirst]
  have hdigest : u.digest = v.digest := by rw [hdigestu, hdigestv, hacc]
  exact ⟨_, u, v, hrunu, hcount ▸ hrunv, hdoneu, hdonev, hacc, hdigest, by rw [hhexcu, hhexcv, hdigest]⟩

end Sys2Proof.Machine

/-! The commands (R211 to R216): what each answers when it is accepted and when it raises an error, and what all of them
leave unchanged (R37). -/

namespace Sys2Proof.Machine

section Answers

variable {s : State}

/-- While BUSY every command but NOP and the reserved ones raises ERR_BUSY and does nothing else (R211). -/
theorem exec_of_busy {i : Instr} (hb : s.phase = .busy) (hnop : i ≠ .nop) (hreserved : ∀ opc, i ≠ .reserved opc) :
    exec i s = .next (s.raise .busy) := by
  cases i with
  | nop => exact absurd rfl hnop
  | clear | push | hash => exact if_pos hb
  | reserved opc => exact absurd rfl (hreserved opc)

theorem exec_clear_of_not_busy (hb : s.phase ≠ .busy) :
    exec .clear s = .next { s.clearErrors with msgLen := 0, phase := .idle } := if_neg hb

theorem exec_hash_of_not_busy (hb : s.phase ≠ .busy) :
    exec .hash s = .next { s with phase := .busy, seq := .pad } := if_neg hb

theorem exec_push_at_capacity (hb : s.phase ≠ .busy) (hm : s.msgLen = s.cfg.maxMsgBytes) (data : Byte) :
    exec (.push data) s = .next (s.raise .full) := (if_neg hb).trans (if_pos hm)

theorem exec_push_below_capacity (hb : s.phase ≠ .busy) (hl : s.msgLen.toNat < s.cfg.maxMsgBytes.toNat) (data : Byte) :
    exec (.push data) s =
      .next { s with msg := s.msg.write s.msgLen.toNat data, msgLen := s.msgLen + 1, phase := .idle } := by
  have hm : s.msgLen ≠ s.cfg.maxMsgBytes := ne_of_apply_ne BitVec.toNat hl.ne
  exact (if_neg hb).trans ((if_neg hm).trans (if_pos hl))

end Answers

/-- Settles O8: CLEAR passes the BUSY test or raises ERR_BUSY. -/
theorem clearEmptiesTheMessageAndTheErrors : Obligations.ClearEmptiesTheMessageAndTheErrors :=
  fun _ => ⟨exec_clear_of_not_busy, fun hb => exec_of_busy hb nofun nofun⟩

/-- Settles O11: HASH passes the BUSY test or raises ERR_BUSY. -/
theorem hashStartsTheEngine : Obligations.HashStartsTheEngine :=
  fun _ => ⟨exec_hash_of_not_busy, fun hb => exec_of_busy hb nofun nofun⟩

/-- Settles O9: below the capacity the byte is written at address MSG_LEN of a canonical memory, where a read finds it
and no other read changes; the two errors come of the tests before it. -/
theorem pushAppendsOneByte : Obligations.PushAppendsOneByte := by
  intro s data hwf
  refine ⟨fun hb hl => ?accepted, fun hb hm => exec_push_at_capacity hb hm data,
    fun hb => exec_of_busy hb nofun nofun⟩
  case accepted =>
    exact ⟨_, exec_push_below_capacity hb hl data, Memory.read_write_same hwf _ data,
      fun a ha => Memory.read_write_other hwf data ha, toNat_succ_of_lt hl, rfl, rfl⟩

/-- Settles O7: NOP answers its state, and OPC 0 is that of NOP whatever the other bits are. -/
theorem nopChangesNothing : Obligations.NopChangesNothing := by
  refine ⟨fun s => rfl, fun s w rest h hopc => ?_⟩
  rw [step_command h, decode_eq_nop (congrArg BitVec.toNat hopc)]
  rfl

/-- Settles O12: a reserved command has no test before it, and OPC 4 or more is that of a reserved command. -/
theorem reservedCommandRaisesErrCmd : Obligations.ReservedCommandRaisesErrCmd := by
  refine ⟨fun s opc => rfl, fun s w rest h hopc => ?_⟩
  rw [step_command h, decode_eq_reserved hopc]
  rfl

/-- Settles O13: the branches of R211 in order. The BUSY test comes before the command is known, and needs only that it is
neither NOP nor reserved. -/
theorem commandDispatchOrder : Obligations.CommandDispatchOrder := by
  intro s w rest h hl
  obtain ⟨hnop, -, -, -, hreserved⟩ := opcOf_of_decode w
  rw [step_command h]
  split_ifs with h4 h0 hb h1 h2 hm
  · rw [decode_eq_reserved h4]
    rfl
  · rw [decode_eq_nop h0]
    rfl
  · exact exec_of_busy hb (mt hnop h0) fun opc hd => h4 (hreserved opc hd).1
  · rw [decode_eq_clear h1]
    exact exec_clear_of_not_busy hb
  · rw [decode_eq_push h2]
    exact exec_push_at_capacity (s := { s with turns := rest }) hb hm _
  · rw [decode_eq_push h2]
    have hlt : s.msgLen.toNat < s.cfg.maxMsgBytes.toNat := lt_of_le_of_ne hl (mt BitVec.eq_of_toNat_eq hm)
    exact exec_push_below_capacity (s := { s with turns := rest }) hb hlt _
  · have h3 : (opcOf w).toNat = 3 := by
      unfold opcOf
      omega
    rw [decode_eq_hash h3]
    exact exec_hash_of_not_busy hb

/-- The items that R37 lets no command write, and the surroundings. -/
theorem CommandEffect.eq_outside {s t : State} {i : Instr} (h : CommandEffect s i t) :
    t = { s with
      msg := t.msg, msgLen := t.msgLen, phase := t.phase, seq := t.seq
      errCmd := t.errCmd, errBusy := t.errBusy, errFull := t.errFull } := by
  cases h <;> rfl

/-- An accepted PUSH stores at address MSG_LEN, and no other command writes MSG. -/
theorem CommandEffect.read_msg_eq {s t : State} {i : Instr} (h : CommandEffect s i t) (hwf : s.msg.wf) {a : Nat}
    (ha : ¬((∃ data, i = .push data) ∧ s.phase ≠ .busy ∧ s.msgLen ≠ s.cfg.maxMsgBytes ∧ a = s.msgLen.toNat)) :
    t.msg.read a = s.msg.read a := by
  cases h with
  | push data hb hm => exact Memory.read_write_other hwf data fun he => ha ⟨⟨data, rfl⟩, hb, hm, he⟩
  | nop | clear | full | hash | busyClear | busyPush | busyHash | reserved => rfl

theorem CommandEffect.msgLen_eq {s t : State} {i : Instr} (h : CommandEffect s i t) (hclear : i ≠ .clear)
    (hpush : ∀ data, i ≠ .push data) : t.msgLen = s.msgLen := by
  cases h with
  | clear => exact absurd rfl hclear
  | push data => exact absurd rfl (hpush data)
  | nop | full | hash | busyClear | busyPush | busyHash | reserved => rfl

theorem CommandEffect.seq_eq {s t : State} {i : Instr} (h : CommandEffect s i t) (hhash : i ≠ .hash) :
    t.seq = s.seq := by
  cases h with
  | hash => exact absurd rfl hhash
  | nop | clear | push | full | busyClear | busyPush | busyHash | reserved => rfl

theorem CommandEffect.phase_eq {s t : State} {i : Instr} (h : CommandEffect s i t)
    (hi : i = .nop ∨ ∃ opc, i = .reserved opc) : t.phase = s.phase := by
  obtain rfl | ⟨opc, rfl⟩ := hi <;> cases h <;> rfl

/-- Settles O15: each item by the effect of the command; most are written by none. -/
theorem commandFrame : Obligations.CommandFrame := by
  intro i s t hwf h
  have heff := exec_effect h
  refine ⟨fun a => heff.read_msg_eq hwf, heff.msgLen_eq, heff.seq_eq, heff.phase_eq, ?_⟩
  rw [heff.eq_outside]
  simp only [and_self]

end Sys2Proof.Machine

/-! The host port (R210, R217 to R219): a write to CMD is a command and any other write is ignored; what each register
shows, and the draws of the reads that R219 leaves unspecified. -/

namespace Sys2Proof.Machine

theorem State.withFetchWord_toNat (s : State) (w : Word) :
    s.withFetchWord 32 w.toNat = { s with turns := Turn.command w :: s.turns } := by
  rw [State.withFetchWord, Nat.mod_eq_of_lt w.isLt, BitVec.ofNat_toNat, BitVec.setWidth_eq, Turn.command]

/-- Settles O5: the turn is the write of a command, which `withFetchWord` puts first. -/
theorem stepPerformsTheWrittenCommand : Obligations.StepPerformsTheWrittenCommand := by
  refine ⟨fun s w rest h => step_command h, fun s w => ?_⟩
  rw [s.withFetchWord_toNat, step_command rfl]

theorem takeTurn_write_of_ne {n : RegNum} (hn : n ≠ 0) (w : Word) (s : State) :
    takeTurn (.host (.write n w)) s = .next s := by
  simp only [takeTurn, hostAccess, hostWrite]
  split
  · exact absurd (HostReg.ofNum_eq_cmd.mp ‹_›) hn
  · rfl

/-- Settles O16: register 0 alone is CMD. -/
theorem writesToOtherRegistersAreIgnored : Obligations.WritesToOtherRegistersAreIgnored := by
  intro s n w rest h
  refine ⟨fun hn => ?_, fun hn => ?_⟩
  · obtain rfl : n = 0 := BitVec.eq_of_toNat_eq hn
    exact step_command h
  · rw [step_of_turn h, takeTurn_write_of_ne (ne_of_apply_ne BitVec.toNat hn)]

theorem State.afterRead_of_undefined {s : State} {n : RegNum} (hr : (HostReg.ofNum n).isResult = true)
    (hd : ¬s.resultDefined = true) :
    s.afterRead n = { s with reads := ⟨n, Config.unspecified s.draws⟩ :: s.reads, draws := s.draws + 1 } := by
  simp only [State.afterRead, State.shown, if_pos (And.intro hr hd)]

/-- Settles O18: registers 4 to 19 are the result registers, and the two conditions are those of R219. -/
theorem undefinedResultReadsAreDraws : Obligations.UndefinedResultReadsAreDraws := by
  intro s n rest h hlow hhigh hcond
  have hr : (HostReg.ofNum n).isResult = true := HostReg.isResult_ofNum.mpr ⟨hlow, hhigh⟩
  have hd : ¬State.resultDefined { s with turns := rest } = true := fun hd => by
    obtain ⟨hb, hv⟩ := State.resultDefined_iff.mp hd
    obtain hb' | hv' := hcond
    · exact hb hb'
    · exact nomatch hv.symm.trans hv'
  rw [step_read h, State.afterRead_of_undefined hr hd]

/-- STATUS as R217 composes it: the sum is below 64, so that it does not wrap. -/
theorem State.status_toNat (s : State) :
    s.status.toNat = s.phase.code + 4 * s.errCmd.toNat + 8 * s.errBusy.toNat + 16 * s.errFull.toNat
      + 32 * s.cfg.firstBlockOnly.toNat := by
  have hphase : s.phase.code ≤ 2 := by cases s.phase <;> decide
  have hcmd := s.errCmd.toNat_le
  have hbusy := s.errBusy.toNat_le
  have hfull := s.errFull.toNat_le
  have hfbo := s.cfg.firstBlockOnly.toNat_le
  rw [State.status, BitVec.toNat_ofNat, Nat.mod_eq_of_lt (by omega)]

theorem HostReg.ofNum_eq_of_toNat {n : RegNum} {reg : HostReg} (h : n.toNat = reg.toNum.toNat) :
    HostReg.ofNum n = reg := by
  rw [BitVec.eq_of_toNat_eq h, HostReg.ofNum_toNum]

theorem HostReg.ofNum_eq_reserved {n : RegNum} (h : 20 ≤ n.toNat) : HostReg.ofNum n = .reserved := by
  unfold HostReg.ofNum
  iterate 7 rw [if_neg (by omega)]

/-- Settles O17: a defined read records the value of the register that the number names, and each number names one. -/
theorem registerReadValues : Obligations.RegisterReadValues := by
  intro s n rest h hn
  have hd : (HostReg.ofNum n).isResult = true → s.resultDefined = true := fun hr => by
    obtain ⟨hlow, hhigh⟩ := HostReg.isResult_ofNum.mp hr
    exact State.resultDefined_iff.mpr (hn hlow hhigh)
  have hshows : ∀ reg : HostReg, n.toNat = reg.toNum.toNat → s.regValue (HostReg.ofNum n) = s.regValue reg :=
    fun reg hreg => congrArg s.regValue (HostReg.ofNum_eq_of_toNat hreg)
  refine ⟨s.regValue (HostReg.ofNum n), step_read_of_defined h hd rfl, hshows .cmd, fun h1 => ?status,
    hshows .msgLen, hshows .capacity, hshows (.state 0), hshows (.state 1), hshows (.state 2), hshows (.state 3),
    fun k hk => hshows (.digest k) (by simp [HostReg.toNum]; omega), fun k hk => ?hex,
    fun h20 => congrArg s.regValue (HostReg.ofNum_eq_reserved h20)⟩
  case status =>
    rw [hshows .status h1]
    exact s.status_toNat
  case hex =>
    rw [hshows (.hex k) (by simp [HostReg.toNum]; omega)]
    exact le32_toNat _ _ _ _

end Sys2Proof.Machine

/-! Errors (R240 to R245): a command raises at most one, the first whose test applies, and no step stops. -/

namespace Sys2Proof.Machine

/-- R242 and R243: a raise sets one error bit, and a command that raises none sets none. -/
theorem CommandEffect.newErrors_le_one {s t : State} {i : Instr} (h : CommandEffect s i t) :
    (t.errCmd && !s.errCmd).toNat + (t.errBusy && !s.errBusy).toNat + (t.errFull && !s.errFull).toNat ≤ 1 := by
  cases h with
  | nop | clear | push | hash => simp
  | full => simpa using (!s.errFull).toNat_le
  | busyClear | busyPush | busyHash => simpa using (!s.errBusy).toNat_le
  | reserved => simpa using (!s.errCmd).toNat_le

/-- Settles O14: the next state is that of the first test of R211 that applies, and each effect of a command sets at most
one error bit. -/
theorem oneCommandRaisesOneError : Obligations.OneCommandRaisesOneError := by
  intro s t w rest h hstep
  have hexec : exec (decode w) { s with turns := rest } = .next t := (step_command h).symm.trans hstep
  refine ⟨fun h4 => ?reserved, fun h1 h3 hb => ?busy, fun h2 hb hm => ?full,
    (exec_effect hexec).newErrors_le_one⟩
  case reserved =>
    exact Host.Outcome.next.inj (hstep.symm.trans (reservedCommandRaisesErrCmd.2 s w rest h h4))
  case busy =>
    obtain ⟨hnop, -, -, -, hreserved⟩ := opcOf_of_decode w
    have hne : decode w ≠ .nop := fun hd => Nat.ne_of_gt h1 (hnop hd)
    have hlegal : ∀ opc, decode w ≠ .reserved opc := fun opc hd =>
      Nat.not_le_of_lt (Nat.lt_succ_of_le h3) (hreserved opc hd).1
    exact Host.Outcome.next.inj
      (hexec.symm.trans (exec_of_busy (s := { s with turns := rest }) hb hne hlegal))
  case full =>
    rw [decode_eq_push h2] at hexec
    exact Host.Outcome.next.inj
      (hexec.symm.trans (exec_push_at_capacity (s := { s with turns := rest }) hb hm _))

/-- Settles O41: the invariant keeps MSG_LEN within the capacity and, where LOAD is next, j below NB_MAX, so that no
access leaves MSG or PAD. -/
theorem noStepStops : Obligations.NoStepStops := fun _ => step_answers

end Sys2Proof.Machine

/-! The host's sequence of R263: CLEAR leaves an empty buffer without errors, each PUSH adds its byte, and HASH hands the
buffer to the engine, which raises no error. -/

namespace Sys2Proof.Machine

/-- The word of `PUSH imm8` (R78) is the encoding of its command (R70). -/
theorem encode_push_eq_add (data : Byte) : encode (.push data) = 0x02000000 + data.setWidth 32 := by
  rw [← pushWord_eq_add]
  apply BitVec.eq_of_toNat_eq
  have hdata : data.toNat < 2 ^ 32 := data.isLt.trans (by decide)
  calc (encode (.push data)).toNat
    _ = 0x02000000 ||| data.toNat := BitVec.toNat_append _ data
    _ = ((0x02000000 : Word) ||| data.setWidth 32).toNat := by
      rw [BitVec.toNat_or, BitVec.toNat_setWidth, Nat.mod_eq_of_lt hdata]
      rfl

theorem decode_pushWord (data : Byte) : decode (0x02000000 + data.setWidth 32) = .push data := by
  rw [← encode_push_eq_add, decode_encode rfl]

/-- No error bit is set (R33). -/
abbrev State.NoError (s : State) : Prop := s.errCmd = false ∧ s.errBusy = false ∧ s.errFull = false

/-- A block in IDLE that has collected `bytes` and raised no error, with the parameters `cfg`. -/
structure State.Collected (s : State) (cfg : Config) (bytes : List Byte) : Prop where
  inv : s.Inv
  idle : s.phase = .idle
  noError : s.NoError
  message : s.message = bytes
  cfg_eq : s.cfg = cfg

section Sequence

variable {s : State} {cfg : Config} {bytes : List Byte} {rest : List Turn}

theorem State.Collected.not_busy (hs : s.Collected cfg bytes) : s.phase ≠ .busy := by
  simp [hs.idle]

theorem step_clear_collected (hinv : s.Inv) (hb : s.phase ≠ .busy) (hturns : s.turns = Turn.command 0x01000000 :: rest) :
    ∃ t, step s = .next t ∧ t.turns = rest ∧ t.Collected s.cfg [] := by
  have hstep := (step_command hturns).trans (exec_clear_of_not_busy (s := { s with turns := rest }) hb)
  exact ⟨_, hstep, rfl, everyStepKeepsTheInvariant s _ hinv hstep, rfl, ⟨rfl, rfl, rfl⟩, rfl, rfl⟩

theorem State.Collected.step_push {data : Byte} (hs : s.Collected cfg bytes) (hl : bytes.length < cfg.maxMsgBytes.toNat)
    (hturns : s.turns = Turn.command (0x02000000 + data.setWidth 32) :: rest) :
    ∃ t, step s = .next t ∧ t.turns = rest ∧ t.Collected cfg (bytes ++ [data]) := by
  have hb := hs.not_busy
  obtain ⟨hinv, -, herror, rfl, rfl⟩ := hs
  have hl : s.msgLen.toNat < s.cfg.maxMsgBytes.toNat := by rwa [← State.message_length]
  have hexec := exec_push_below_capacity (s := { s with turns := rest }) hb hl data
  have hstep := (step_command hturns).trans ((decode_pushWord data).symm ▸ hexec)
  have ⟨⟨hwf, _⟩, _⟩ := hinv
  exact ⟨_, hstep, rfl, everyStepKeepsTheInvariant s _ hinv hstep, rfl, herror,
    pushExtendsTheMessage { s with turns := rest } _ data hwf hb hl hexec, rfl⟩

theorem State.Collected.run_pushes (more : List Byte) {s : State} {bytes : List Byte} (hs : s.Collected cfg bytes)
    (hl : bytes.length + more.length ≤ cfg.maxMsgBytes.toNat)
    (hturns : s.turns = (more.map fun b => Turn.command (0x02000000 + b.setWidth 32)) ++ rest) :
    ∃ t, run more.length s = .next t ∧ t.turns = rest ∧ t.Collected cfg (bytes ++ more) := by
  induction more generalizing s bytes with
  | nil => exact ⟨s, rfl, hturns, by rwa [List.append_nil]⟩
  | cons data more ih =>
    rw [List.length_cons] at hl
    obtain ⟨u, hstep, hturns', hu⟩ := hs.step_push (by omega) hturns
    obtain ⟨t, hrun, hrest, ht⟩ := ih hu (by rw [List.length_append, List.length_singleton]; omega) hturns'
    exact ⟨t, (run_succ hstep _).trans hrun, hrest, by rwa [List.append_cons]⟩

theorem State.Collected.step_hash (hs : s.Collected cfg bytes) (hturns : s.turns = [Turn.command 0x03000000]) :
    ∃ t, step s = .next t ∧ t.turns = [] ∧ t.Inv ∧ t.phase = .busy ∧ t.seq = .pad ∧ t.NoError ∧
      t.message = bytes ∧ t.cfg = cfg := by
  have hstep := (step_command hturns).trans (exec_hash_of_not_busy (s := { s with turns := [] }) hs.not_busy)
  exact ⟨_, hstep, rfl, everyStepKeepsTheInvariant s _ hs.inv hstep, rfl, rfl, hs.noError, hs.message, hs.cfg_eq⟩

end Sequence

/-- The engine raises no error (R241). -/
theorem EngineEffect.noError {s t : State} (h : EngineEffect s t) (hs : s.NoError) : t.NoError := by
  cases h <;> exact hs

theorem run_noError_of_alone (n : Nat) {s t : State} (hturns : s.turns = []) (hs : s.NoError)
    (h : run n s = .next t) : t.NoError := by
  induction n generalizing s with
  | zero =>
    cases h
    exact hs
  | succ n ih =>
    rw [run] at h
    split at h
    · rename_i u hstep
      have hengine : engineTurn s = .next u := by
        obtain ⟨-, halone, -⟩ := stepRunsTheEngine s
        rwa [← halone hturns]
      have heff := engineTurn_effect hengine
      exact ih (heff.turns_eq.trans hturns) (heff.noError hs) h
    · cases h
    · cases h

/-- Settles O52: the sequence leaves a block that starts to hash the bytes, in `|bytes| + 2` steps, and the engine alone
ends that hash in as many steps as there are micro-steps left. -/
theorem hostSequenceComputesTheHash : Obligations.HostSequenceComputesTheHash := by
  intro s bytes hinv hb hlen hturns
  rw [turnsOf_asmHashs, List.cons_append] at hturns
  obtain ⟨s₁, hclear, hturns₁, hs₁⟩ := step_clear_collected hinv hb hturns
  obtain ⟨s₂, hpushes, hturns₂, hs₂⟩ := hs₁.run_pushes bytes (by rwa [List.length_nil, Nat.zero_add]) hturns₁
  obtain ⟨s₃, hhash, hturns₃, hinv₃, hbusy, hseq, herror, hmessage, hcfg⟩ := hs₂.step_hash hturns₂
  have hstarted : run (bytes.length + 2) s = .next s₃ := by
    rw [run_succ hclear, run_add hpushes, run_succ hhash, run_zero]
  obtain ⟨t, hrun, hdone, hsame⟩ := (State.hashing_of_pad hinv₃ hbusy hseq).run_alone hturns₃
  have hcount : s₃.microStepsLeft = 2 + 66 * effectiveBlocks s.cfg.firstBlockOnly bytes := by
    rw [State.microStepsLeft_of_pad hbusy hseq, hmessage, hcfg, List.nil_append]
  obtain ⟨hacc, hdigest, hhexc⟩ := hsame.results hdone
  rw [hmessage, hcfg, List.nil_append] at hacc
  have ⟨_, _, _, _, hvalid⟩ := hsame.inv
  refine ⟨t, ?_, hdone, hvalid hdone, hsame.message.trans hmessage, hacc, by rw [hdigest, hacc], ?_,
    run_noError_of_alone _ hturns₃ herror hrun⟩
  · rw [run_add hstarted, ← hcount, hrun]
  · rw [hhexc, hdigest, hacc, hashChars]

end Sys2Proof.Machine

/-! No host read depends on an unspecified reset value (R261): what a host can ever see of a block is its parameters, its
status, its message, the results where they are defined, and how many micro-steps its hash has left. Two blocks that agree
in these go on agreeing, whatever else differs. -/

namespace Sys2Proof.Machine

/-- A block that meets both invariants. -/
structure State.Sound (s : State) : Prop where
  inv : s.Inv
  hashInv : s.HashInv

theorem State.Sound.next {s : State} (hs : s.Sound) : ∃ t, step s = .next t ∧ t.Sound := by
  obtain ⟨t, h⟩ := step_answers hs.inv
  exact ⟨t, h, everyStepKeepsTheInvariant s t hs.inv h, everyStepKeepsTheHashInvariant s t hs.inv hs.hashInv h⟩

/-- Two blocks that agree in what the host sees and the engine does not write. -/
structure SameBeyondEngine (s t : State) : Prop where
  parameters : sameParameters s t
  errCmd : s.errCmd = t.errCmd
  errBusy : s.errBusy = t.errBusy
  errFull : s.errFull = t.errFull
  message : s.message = t.message
  turns : s.turns = t.turns
  reads : s.reads = t.reads
  draws : s.draws = t.draws

/-- Two blocks that the host cannot tell apart. Of what the engine writes it sees the phase and the results where they are
defined (R219), which the accumulator determines; when a hash ends is told by the micro-steps left. -/
structure SameToHost (s t : State) : Prop extends SameBeyondEngine s t where
  phase : s.phase = t.phase
  resValid : s.resValid = t.resValid
  acc : s.phase ≠ .busy → s.resValid = true → s.acc = t.acc
  microStepsLeft : s.microStepsLeft = t.microStepsLeft

/-- The items that R37 lets the engine write are the only ones it does. -/
theorem EngineEffect.eq_outside {s t : State} (h : EngineEffect s t) :
    t = { s with
      lenBits := t.lenBits, pad := t.pad, nb := t.nb, acc := t.acc, work := t.work, x := t.x, phase := t.phase
      seq := t.seq, j := t.j, i := t.i, digest := t.digest, hexc := t.hexc, resValid := t.resValid } := by
  cases h <;> rfl

/-- A micro-step other than FORMAT leaves PHASE and RES_VALID as they are (R37, R191). -/
theorem EngineEffect.busy_or_done {s t : State} (h : EngineEffect s t) (hb : s.phase = .busy) :
    t.phase = .busy ∧ t.resValid = s.resValid ∨ t.phase = .done ∧ t.resValid = true := by
  cases h with
  | rest hnot => exact absurd hb hnot
  | pad | load | round | lastRound | fold | lastFold => exact .inl ⟨hb, rfl⟩
  | format => exact .inr ⟨rfl, rfl⟩

theorem EngineEffect.eq_of_not_busy {s t : State} (h : EngineEffect s t) (hb : s.phase ≠ .busy) : t = s := by
  cases h with
  | rest => rfl
  | pad h | load h | round h | lastRound h | fold h | lastFold h | format h => exact absurd h hb

theorem hashState_congr {cfg cfg' : Config} (hfirst : cfg.firstBlockOnly = cfg'.firstBlockOnly)
    (hk : cfg.kTable = cfg'.kTable) (m : List Byte) : hashState cfg m = hashState cfg' m := by
  rw [hashState, hashState, hfirst, hk]

theorem State.HashInv.results {s : State} (hs : s.HashInv) (hd : s.resultDefined = true) :
    s.digest = digestWords s.acc ∧ s.hexc = hexChars (digestWords s.acc) := by
  obtain ⟨-, -, hresult⟩ := hs
  exact hresult hd

namespace SameToHost

variable {s t s' t' : State}

theorem msgLen (h : SameToHost s t) : s.msgLen = t.msgLen := by
  apply BitVec.eq_of_toNat_eq
  rw [← State.message_length, h.message, State.message_length]

theorem status (h : SameToHost s t) : s.status = t.status := by
  obtain ⟨-, hfirst, -⟩ := h.parameters
  rw [State.status, State.status, h.phase, h.errCmd, h.errBusy, h.errFull, hfirst]

theorem resultDefined (h : SameToHost s t) : s.resultDefined = t.resultDefined := by
  rw [State.resultDefined, State.resultDefined, h.phase, h.resValid]

theorem raise (h : SameToHost s t) (e : ErrorKind) : SameToHost (s.raise e) (t.raise e) := by
  cases e with
  | cmd => exact { h with errCmd := rfl }
  | busy => exact { h with errBusy := rfl }
  | full => exact { h with errFull := rfl }

theorem of_exec {i : Instr} (h : SameToHost s t) (hwf : s.msg.wf) (hwf' : t.msg.wf) (hexec : exec i s = .next s')
    (hexec' : exec i t = .next t') : SameToHost s' t' := by
  have ⟨hmax, hfirst, _⟩ := h.parameters
  have hbusy : s.phase = .busy ↔ t.phase = .busy := by rw [h.phase]
  cases exec_effect hexec with
  | nop =>
    cases hexec'
    exact h
  | clear hb =>
    cases hexec'.symm.trans (exec_clear_of_not_busy (mt hbusy.mpr hb))
    exact { h with
      phase := rfl, errCmd := rfl, errBusy := rfl, errFull := rfl, message := rfl, microStepsLeft := rfl
      acc := fun _ => h.acc hb }
  | push data hb _ hl =>
    have hl' : t.msgLen.toNat < t.cfg.maxMsgBytes.toNat := by rwa [← h.msgLen, ← hmax]
    have hmessage := pushExtendsTheMessage s _ data hwf hb hl hexec
    have hmessage' := pushExtendsTheMessage t t' data hwf' (mt hbusy.mpr hb) hl' hexec'
    rw [← h.message, ← hmessage] at hmessage'
    cases hexec'.symm.trans (exec_push_below_capacity (mt hbusy.mpr hb) hl' data)
    exact { h with phase := rfl, message := hmessage'.symm, microStepsLeft := rfl, acc := fun _ => h.acc hb }
  | full data hb hm =>
    have hm' : t.msgLen = t.cfg.maxMsgBytes := by rw [← h.msgLen, ← hmax, hm]
    cases hexec'.symm.trans (exec_push_at_capacity (mt hbusy.mpr hb) hm' data)
    exact h.raise .full
  | hash hb =>
    cases hexec'.symm.trans (exec_hash_of_not_busy (mt hbusy.mpr hb))
    have hblocks : effectiveBlocks s.cfg.firstBlockOnly s.message = effectiveBlocks t.cfg.firstBlockOnly t.message := by
      rw [hfirst, h.message]
    exact { h with
      phase := rfl, microStepsLeft := congrArg (2 + 66 * ·) hblocks, acc := fun hnot => absurd rfl hnot }
  | busyClear hb | busyPush _ hb | busyHash hb =>
    cases hexec'.symm.trans (exec_of_busy (hbusy.mp hb) nofun nofun)
    exact h.raise .busy
  | reserved opc =>
    cases hexec'
    exact h.raise .cmd

theorem beyondEngine_of_effects (h : SameToHost s t) (heff : EngineEffect s s') (heff' : EngineEffect t t') :
    SameBeyondEngine s' t' := by
  rw [heff.eq_outside, heff'.eq_outside]
  exact { h with }

/-- Both blocks have the same number of micro-steps left, so that both hashes go on or both end, with the hash of the one
message. -/
theorem of_effects (h : SameToHost s t) (hs : s.Sound) (ht : t.Sound) (heff : EngineEffect s s')
    (heff' : EngineEffect t t') : SameToHost s' t' := by
  have hsame := h.beyondEngine_of_effects heff heff'
  by_cases hb : s.phase = .busy
  · have hb' : t.phase = .busy := h.phase ▸ hb
    have hleft : s'.microStepsLeft = t'.microStepsLeft := by
      have hcount := heff.microStepsLeft_succ hs.inv hb
      have hcount' := heff'.microStepsLeft_succ ht.inv hb'
      have hsame_count := h.microStepsLeft
      omega
    have hends : s'.phase = .busy ↔ t'.phase = .busy := by
      rw [← State.microStepsLeft_pos_iff, hleft, State.microStepsLeft_pos_iff]
    obtain ⟨hp, hv⟩ | ⟨hp, hv⟩ := heff.busy_or_done hb <;> obtain ⟨hp', hv'⟩ | ⟨hp', hv'⟩ := heff'.busy_or_done hb'
    · exact { hsame with
        phase := hp.trans hp'.symm, resValid := by rw [hv, hv', h.resValid]
        acc := fun hnot => absurd hp hnot, microStepsLeft := hleft }
    · exact nomatch (hends.mp hp).symm.trans hp'
    · exact nomatch (hends.mpr hp').symm.trans hp
    · obtain ⟨-, hacc, -⟩ := heff.keeps_hashInv hs.inv hs.hashInv
      obtain ⟨-, hacc', -⟩ := heff'.keeps_hashInv ht.inv ht.hashInv
      obtain ⟨-, hfirst, hk⟩ := hsame.parameters
      exact { hsame with
        phase := hp.trans hp'.symm, resValid := hv.trans hv'.symm
        acc := fun _ _ => by rw [hacc hp, hacc' hp', hsame.message, hashState_congr hfirst hk]
        microStepsLeft := hleft }
  · have hb' : t.phase ≠ .busy := h.phase ▸ hb
    cases heff.eq_of_not_busy hb
    cases heff'.eq_of_not_busy hb'
    exact h

theorem regValue (h : SameToHost s t) (hs : s.HashInv) (ht : t.HashInv) {reg : HostReg}
    (hd : reg.isResult = true → s.resultDefined = true) : s.regValue reg = t.regValue reg := by
  have hacc : s.resultDefined = true → s.acc = t.acc := fun hd => by
    obtain ⟨hb, hv⟩ := State.resultDefined_iff.mp hd
    exact h.acc hb hv
  have ⟨hmax, _⟩ := h.parameters
  cases reg with
  | cmd | reserved => rfl
  | status => exact h.status
  | msgLen => exact h.msgLen
  | capacity => exact hmax
  | state k => exact congrArg (quadWord · k) (hacc (hd rfl))
  | digest k =>
    obtain ⟨hdigest, -⟩ := hs.results (hd rfl)
    obtain ⟨hdigest', -⟩ := ht.results (h.resultDefined ▸ hd rfl)
    rw [State.regValue, State.regValue, hdigest, hdigest', hacc (hd rfl)]
  | hex n =>
    obtain ⟨-, hhexc⟩ := hs.results (hd rfl)
    obtain ⟨-, hhexc'⟩ := ht.results (h.resultDefined ▸ hd rfl)
    rw [State.regValue, State.regValue, hhexc, hhexc', hacc (hd rfl)]

theorem shown (h : SameToHost s t) (hs : s.HashInv) (ht : t.HashInv) (n : RegNum) : s.shown n = t.shown n := by
  rw [State.shown, State.shown, ← h.resultDefined, ← h.draws]
  split_ifs with hd
  · rfl
  · exact h.regValue hs ht fun hr => by
      by_contra hv
      exact hd ⟨hr, hv⟩

theorem afterRead (h : SameToHost s t) (hs : s.HashInv) (ht : t.HashInv) (n : RegNum) :
    SameToHost (s.afterRead n) (t.afterRead n) :=
  { h with
    reads := by simp only [State.afterRead, h.shown hs ht, h.reads]
    draws := by simp only [State.afterRead, h.resultDefined, h.draws] }

theorem resetBlock (h : SameToHost s t) : SameToHost s.resetBlock t.resetBlock :=
  { h with
    phase := rfl, errCmd := rfl, errBusy := rfl, errFull := rfl, message := rfl, resValid := rfl, acc := nofun
    microStepsLeft := rfl }

theorem of_takeTurn {turn : Turn} (h : SameToHost s t) (hs : s.Sound) (ht : t.Sound)
    (hturn : takeTurn turn s = .next s') (hturn' : takeTurn turn t = .next t') : SameToHost s' t' := by
  match turn with
  | .engine => exact h.of_effects hs ht (engineTurn_effect hturn) (engineTurn_effect hturn')
  | .host (.read n) =>
    cases hturn.symm.trans (takeTurn_read n s)
    cases hturn'.symm.trans (takeTurn_read n t)
    exact h.afterRead hs.hashInv ht.hashInv n
  | .host (.write n w) =>
    by_cases hn : n = 0
    · subst hn
      obtain ⟨⟨hwf, -⟩, -⟩ := hs.inv
      obtain ⟨⟨hwf', -⟩, -⟩ := ht.inv
      exact h.of_exec hwf hwf' hturn hturn'
    · cases hturn.symm.trans (takeTurn_write_of_ne hn w s)
      cases hturn'.symm.trans (takeTurn_write_of_ne hn w t)
      exact h
  | .reset =>
    cases hturn
    cases hturn'
    exact h.resetBlock

theorem of_step (h : SameToHost s t) (hs : s.Sound) (ht : t.Sound) (hstep : step s = .next s')
    (hstep' : step t = .next t') : SameToHost s' t' := by
  have htaken : SameToHost { s with turns := s.turns.tail } { t with turns := t.turns.tail } :=
    { h with turns := congrArg List.tail h.turns }
  have hnext : t.nextTurn = s.nextTurn := by rw [State.nextTurn, State.nextTurn, h.turns]
  rw [step_eq] at hstep hstep'
  rw [hnext] at hstep'
  exact htaken.of_takeTurn ⟨hs.inv, hs.hashInv⟩ ⟨ht.inv, ht.hashInv⟩ hstep hstep'

theorem of_run (n : Nat) (h : SameToHost s t) (hs : s.Sound) (ht : t.Sound) :
    ∃ u v, run n s = .next u ∧ run n t = .next v ∧ SameToHost u v := by
  induction n generalizing s t with
  | zero => exact ⟨s, t, rfl, rfl, h⟩
  | succ n ih =>
    obtain ⟨s', hstep, hs'⟩ := hs.next
    obtain ⟨t', hstep', ht'⟩ := ht.next
    rw [run_succ hstep, run_succ hstep']
    exact ih (h.of_step hs ht hstep hstep') hs' ht'

end SameToHost

theorem State.sound_of_idle {s : State} (hinv : s.Inv) (hi : s.phase = .idle) (hv : s.resValid = false) : s.Sound :=
  ⟨hinv, State.hashInv_of_idle hi (by simp [hv])⟩

theorem State.message_of_msgLen_zero {s : State} (h : s.msgLen = 0) : s.message = [] := by
  rw [State.message, h]
  rfl

theorem sameToHost_of_justReset {s t : State} (h : bothJustReset s t) : SameToHost s t := by
  obtain ⟨-, hparameters, ⟨hi, hi'⟩, ⟨hl, hl'⟩, ⟨hc, hc'⟩, ⟨hb, hb'⟩, ⟨hf, hf'⟩, ⟨hv, hv'⟩, hturns, hreads, hdraws⟩ := h
  exact
    { parameters := hparameters, turns := hturns, reads := hreads, draws := hdraws
      phase := hi.trans hi'.symm
      errCmd := hc.trans hc'.symm
      errBusy := hb.trans hb'.symm
      errFull := hf.trans hf'.symm
      resValid := hv.trans hv'.symm
      message := by rw [State.message_of_msgLen_zero hl, State.message_of_msgLen_zero hl']
      acc := fun _ hvalid => by simp [hv] at hvalid
      microStepsLeft := by
        rw [State.microStepsLeft_of_not_busy (by simp [hi]), State.microStepsLeft_of_not_busy (by simp [hi'])] }

/-- Settles O55: two blocks just out of reset are the same to the host, every step keeps them so, and the record of reads
and STATUS are part of what the host sees. -/
theorem unspecifiedResetValuesAreNeverObserved : Obligations.UnspecifiedResetValuesAreNeverObserved := by
  intro s t h n
  have ⟨⟨hinv, hinv'⟩, _, ⟨hi, hi'⟩, _, _, _, _, ⟨hv, hv'⟩, _⟩ := h
  obtain ⟨u, v, hrun, hrun', hsame⟩ := (sameToHost_of_justReset h).of_run n (State.sound_of_idle hinv hi hv)
    (State.sound_of_idle hinv' hi' hv')
  exact ⟨u, v, hrun, hrun', hsame.reads, hsame.status⟩

end Sys2Proof.Machine

/-! Reset (R260 to R262): the state it leaves, which meets both invariants, and the parameter that no rule reads (R268). -/

namespace Sys2Proof.Machine

/-- Settles O37: the rows of R261 that give a value, read off the state; MSG_LEN 0 makes the message empty. -/
theorem resetStateValues : Obligations.ResetStateValues :=
  ⟨rfl, rfl, rfl, rfl, rfl, rfl, rfl, State.message_of_msgLen_zero rfl⟩

/-- Settles O38: the step is the reset turn, which leaves the reset block in IDLE, where the engine rests. -/
theorem resetInputAbandonsTheHash : Obligations.ResetInputAbandonsTheHash := by
  intro s rest h
  have hidle : State.phase { s with turns := rest }.resetBlock ≠ .busy := by simp
  exact ⟨_, step_of_turn h, rfl, rfl, rfl, rfl, rfl, rfl, rfl, rfl, rfl, rfl, if_neg hidle⟩

/-- Settles O39: the state after reset is what the reset input makes of it. -/
theorem resetMeetsTheInvariant : Obligations.ResetMeetsTheInvariant := State.reset.resetBlock_inv

/-- Settles O50: the state after reset is in IDLE and has no valid result. -/
theorem resetMeetsTheHashInvariant : Obligations.ResetMeetsTheHashInvariant := State.hashInv_of_idle rfl nofun

/-- Settles O57: a step writes none of the parameters. -/
theorem modelHoldsOneCyclesPerStep : Obligations.ModelHoldsOneCyclesPerStep :=
  fun _ _ h => congrArg Config.cyclesPerStep (step_cfg_eq h)

end Sys2Proof.Machine
